-- ==== Sys2Proof/Word.lean ====
section
/-! DEFINITION. The word types of FRAMEC: the widths of spec/00_scope.md R7. -/

namespace Sys2Proof

/-- A `u8`: the unit of the rx and tx ports, a marker, a payload byte (R7, R9). -/
abbrev Byte := BitVec 8

/-- The 32-bit operand OPD of a command word (R61), and the bits of an `i32` (R9). -/
abbrev Operand := BitVec 32

/-- A command word: one unit of the cmd port, 40 bits (R7, R61). -/
abbrev CmdWord := BitVec 40

/-- A 32-bit vector driven in parallel: STATUS (R33) and FSTAT (R68). -/
abbrev Vec32 := BitVec 32

end Sys2Proof
end

