-- ==== Sys2Proof/Config.lean ====
section
/-! DEFINITION. What one instance of FRAMEC fixes and the spec leaves open: the two parameters of
spec/00_scope.md section 4. They are constants with no body, so nothing can be proved of their values but the
bounds R5 and R6 give (log 5). -/

namespace Sys2Proof

/-- ACC_CAP less one, in 0..65534: uninterpreted (R5, log 5). -/
opaque Config.accCapLessOne : Fin 65535

/-- TX_DEPTH less eleven: uninterpreted (R6, log 5). -/
opaque Config.txDepthLessEleven : Nat

/-- ACC_CAP, "the accumulator capacity in bytes ... 1 <= ACC_CAP <= 65535" (R5). -/
def Config.accCap : Nat := Config.accCapLessOne.val + 1

/-- TX_DEPTH, "the capacity of the transmit queue TXQ in bytes ... TX_DEPTH >= 11" (R6). -/
def Config.txDepth : Nat := Config.txDepthLessEleven + 11

end Sys2Proof
end

