-- ==== Sys2Proof/Syntax.lean ====
section
/-! DEFINITION. The names of FRAMEC: the overflow policy, the ports and their units, the agents, and the
instructions, one constructor per row of spec/opcode_table.json. -/

namespace Sys2Proof

/-- POLICY, the integer overflow policy of the token encoder (R22): 0 is WIDE, 1 is REJECT. -/
inductive Policy where
  | wide
  | reject
  deriving DecidableEq, Repr

/-- The ports a unit crosses (R60). STATUS is a level, not a port with units. -/
inductive Port where
  | cmd
  | rx
  | tx
  | frm
  | rst
  deriving DecidableEq, Repr

/-- One unit on a port, with the bits it carries: a command word (R61), an rx byte (R67), a tx byte (R69), the
FSTAT word of a frame record (R68), or a reset event, which carries no data (R190). -/
inductive PortUnit where
  | cmd (w : CmdWord)
  | rx (b : Byte)
  | tx (b : Byte)
  | frm (fstat : Vec32)
  | rst
  deriving DecidableEq, Repr

/-- The port a unit is on. -/
def PortUnit.port : PortUnit → Port
  | .cmd _ => .cmd
  | .rx _ => .rx
  | .tx _ => .tx
  | .frm _ => .frm
  | .rst => .rst

/-- The five agents that take FRAMEC's steps (R181). -/
inductive Agent where
  | host
  | rxSource
  | frameSink
  | txSink
  | resetSource
  deriving DecidableEq, Repr

/-- The port each agent works on (R60, R181). -/
def Agent.port : Agent → Port
  | .host => .cmd
  | .rxSource => .rx
  | .frameSink => .frm
  | .txSink => .tx
  | .resetSource => .rst

/-- One entry of the interleaving (R50, R73; logs 1 and 15): one step of an agent, or the tx sink's steps "until TXQ
is empty" (`txdrain`). -/
inductive Turn where
  | once (a : Agent)
  | drain
  deriving DecidableEq, Repr

/-- The steps of FRAMEC: the seven commands and the illegal words of the cmd port (R62, R65) and the four port
operations (R121, R126, R98, R190). -/
inductive Instr where
  /-- `nop`: OPC 0x00, the operand ignored (R150). -/
  | nop
  /-- `set_markers`: HEAD = OPD[7:0], TAIL = OPD[15:8] (R151). -/
  | setMarkers (head tail : Byte)
  /-- `set_policy`: P = OPD[0] (R152). -/
  | setPolicy (p : Policy)
  /-- `clear_err`: CV = OPD[1], CB = OPD[0] (R153). -/
  | clearErr (cv cb : Bool)
  /-- `tx_byte`: D = OPD[7:0] (R92). -/
  | txByte (d : Byte)
  /-- `tx_int_token`: V = sint32(OPD), held as its bits OPD (R94, R63). -/
  | txIntToken (v : Operand)
  /-- `tx_int32`: V = OPD (R97). -/
  | txInt32 (v : Operand)
  /-- `illegal`: any other word; "the whole word, which is not recorded" (R154). -/
  | illegal (w : CmdWord)
  /-- `rx.byte`: the next byte of the received stream (R121). -/
  | rxByte (b : Byte)
  /-- `frm.take`: the frame sink takes FRM; no operand (R126). -/
  | frmTake
  /-- `tx.take`: the tx sink takes the first byte of TXQ; no operand (R98). -/
  | txTake
  /-- `reset`: a reset event; no data (R190). -/
  | reset
  deriving DecidableEq, Repr

/-- The agent whose step an instruction is (R181). -/
def Instr.agent : Instr → Agent
  | .nop => .host
  | .setMarkers _ _ => .host
  | .setPolicy _ => .host
  | .clearErr _ _ => .host
  | .txByte _ => .host
  | .txIntToken _ => .host
  | .txInt32 _ => .host
  | .illegal _ => .host
  | .rxByte _ => .rxSource
  | .frmTake => .frameSink
  | .txTake => .txSink
  | .reset => .resetSource

end Sys2Proof
end

