-- ==== Sys2Proof/WellFormed.lean ====
section
/-! DEFINITION. Which instructions are well formed. Every operand is typed at the width its field has, so the
one check left is that `illegal` carries a word that IS illegal: one that matches no row of the opcode map (R62,
R65). The map stands here as masks and patterns, as spec/opcode_table.json gives it; the decoder is written apart
from it, in the order of R64. -/

namespace Sys2Proof

/-- One row of the opcode map: a word is of the row when its bits under `mask` are `pattern` (R62). -/
structure CmdRow where
  mask : CmdWord
  pattern : CmdWord
  deriving DecidableEq, Repr

/-- The word `w` is of the row `r`. -/
def CmdRow.covers (r : CmdRow) (w : CmdWord) : Bool := w &&& r.mask == r.pattern

/-- The opcode map of R62: NOP, SET_MARKERS, SET_POLICY, CLEAR_ERR, TX_BYTE, TX_INT_TOKEN, TX_INT32. -/
def cmdRows : List CmdRow :=
  [⟨0xFF00000000#40, 0x0000000000#40⟩,
   ⟨0xFFFFFF0000#40, 0x0100000000#40⟩,
   ⟨0xFFFFFFFFFE#40, 0x0200000000#40⟩,
   ⟨0xFFFFFFFFFC#40, 0x0300000000#40⟩,
   ⟨0xFFFFFFFF00#40, 0x1000000000#40⟩,
   ⟨0xFF00000000#40, 0x1100000000#40⟩,
   ⟨0xFF00000000#40, 0x1200000000#40⟩]

/-- The word is of some row of the opcode map, so no illegal encoding (R62, R65). -/
def definedWord (w : CmdWord) : Bool := cmdRows.any (fun r => r.covers w)

/-- An instruction is well formed: an `illegal` carries an illegal word (R65); nothing else can be wrong. -/
def Instr.wellFormed : Instr → Bool
  | .illegal w => !definedWord w
  | .nop => true
  | .setMarkers _ _ => true
  | .setPolicy _ => true
  | .clearErr _ _ => true
  | .txByte _ => true
  | .txIntToken _ => true
  | .txInt32 _ => true
  | .rxByte _ => true
  | .frmTake => true
  | .txTake => true
  | .reset => true

end Sys2Proof
end

