-- ==== Sys2Proof/Decode.lean ====
section
/-! DEFINITION. Decoding and encoding the units of FRAMEC's ports (spec/30_encoding.md). Decoding a unit is total
and never rejects: "every 40-bit word decodes to exactly one of the eight outcomes" (R64). What can be rejected, by
name, is a raw string of bits that is no unit of the port it is given to (`decodeBits`). -/

namespace Sys2Proof

/-! ### The command word -/

/-- OPC = w[39:32] (R61). -/
def opcOf (w : CmdWord) : BitVec 8 := w.extractLsb' 32 8

/-- OPD = w[31:0] (R61). -/
def opdOf (w : CmdWord) : Operand := w.extractLsb' 0 32

/-- The command word with the given OPC and OPD (R61). -/
def cmdWord (opc : BitVec 8) (opd : Operand) : CmdWord := opc ++ opd

/-- P = OPD[0]: 0 selects WIDE, 1 selects REJECT (R63). -/
def policyOfBit (p : Bool) : Policy := if p then .reject else .wide

/-- The bit that stands for a policy (R22). -/
def Policy.bit : Policy → Bool
  | .wide => false
  | .reject => true

/-- Decoding a command word, in the order of R64. A word R64 calls BadCommand is `illegal`. -/
def decodeCmd (w : CmdWord) : Instr :=
  let opc := opcOf w
  let opd := opdOf w
  if opc = 0x00#8 then .nop
  else if opc = 0x01#8 then
    if opd.extractLsb' 16 16 ≠ 0#16 then .illegal w
    else .setMarkers (opd.extractLsb' 0 8) (opd.extractLsb' 8 8)
  else if opc = 0x02#8 then
    if opd.extractLsb' 1 31 ≠ 0#31 then .illegal w else .setPolicy (policyOfBit (opd.getLsbD 0))
  else if opc = 0x03#8 then
    if opd.extractLsb' 2 30 ≠ 0#30 then .illegal w else .clearErr (opd.getLsbD 1) (opd.getLsbD 0)
  else if opc = 0x10#8 then
    if opd.extractLsb' 8 24 ≠ 0#24 then .illegal w else .txByte (opd.extractLsb' 0 8)
  else if opc = 0x11#8 then .txIntToken opd
  else if opc = 0x12#8 then .txInt32 opd
  else .illegal w

/-! ### The units of every port -/

/-- The instruction a unit is: a command word by R64, an rx byte the operand of rx.byte (R121), and a unit on
tx, frm or rst the step tx.take, frm.take or reset, which take no operand (R98, R126, R190). -/
def decode : PortUnit → Instr
  | .cmd w => decodeCmd w
  | .rx b => .rxByte b
  | .tx _ => .txTake
  | .frm _ => .frmTake
  | .rst => .reset

/-! ### Raw bits -/

/-- Why a string of bits is no unit of a port. -/
inductive DecodeError where
  /-- The port transfers whole units of another width (R46). -/
  | notTheUnitsWidth
  /-- The number has bits above the unit's width. -/
  | bitsAboveTheUnit
  /-- FSTAT bits 31:20 are "reserved, always 0" (R68); safe: the block drives no such word. -/
  | fstatReservedBits
  deriving DecidableEq, Repr

/-- The width of a port's unit in bits (R7, R60, R68, R69); a reset event is one bit in spec/opcode_table.json. -/
def Port.width : Port → Nat
  | .cmd => 40
  | .rx => 8
  | .tx => 8
  | .frm => 32
  | .rst => 1

/-- FSTAT's reserved bits 31:20 are 0 (R68). -/
def fstatReservedClear (f : Vec32) : Bool := f.extractLsb' 20 12 == 0#12

/-- The unit of port `p` with the bits `w`, bit 0 the least significant. -/
def unitOfBits (p : Port) (w : Nat) : PortUnit :=
  match p with
  | .cmd => .cmd (BitVec.ofNat 40 w)
  | .rx => .rx (BitVec.ofNat 8 w)
  | .tx => .tx (BitVec.ofNat 8 w)
  | .frm => .frm (BitVec.ofNat 32 w)
  | .rst => .rst

/-- Decoding raw bits on a port, total, rejecting by name what is no unit of the port (R46, R68). -/
def decodeBits (p : Port) (nbits w : Nat) : Except DecodeError Instr :=
  if nbits ≠ p.width then .error .notTheUnitsWidth
  else if 2 ^ p.width ≤ w then .error .bitsAboveTheUnit
  else if p = .frm ∧ fstatReservedClear (BitVec.ofNat 32 w) = false then .error .fstatReservedBits
  else .ok (decode (unitOfBits p w))

/-- The port a row of spec/opcode_table.json is read on, by the row's number of bits: 40 is a command word, 32 an
FSTAT word, 1 the reset event; 8 is read as an rx byte, the only 8-bit unit that enters the block (log 6). -/
def tablePort (nbits : Nat) : Option Port :=
  if nbits = 40 then some .cmd
  else if nbits = 8 then some .rx
  else if nbits = 32 then some .frm
  else if nbits = 1 then some .rst
  else none

/-- The instruction the decoder reads from a table row's bits; none where it refuses (log 6). -/
def decodeTableWord (nbits w : Nat) : Option Instr :=
  match tablePort nbits with
  | none => none
  | some p =>
    match decodeBits p nbits w with
    | .ok i => some i
    | .error _ => none

/-! ### Encoding -/

/-- A bit as an OPD field of one bit. -/
def bitField (b : Bool) : BitVec 1 := BitVec.ofBool b

/-- The unit of an instruction: the patterns of R62 for the commands, the word itself for an illegal one, the byte
for rx.byte (R67). NOP's ignored operand is written 0 (log 8); frm.take and tx.take fix no bit of the unit they
take, and stand here with the FSTAT of an empty frame and the byte 0 (log 7). -/
def encode : Instr → PortUnit
  | .nop => .cmd (cmdWord 0x00#8 0#32)
  | .setMarkers head tail => .cmd (cmdWord 0x01#8 (0#16 ++ tail ++ head))
  | .setPolicy p => .cmd (cmdWord 0x02#8 (0#31 ++ bitField p.bit))
  | .clearErr cv cb => .cmd (cmdWord 0x03#8 (0#30 ++ bitField cv ++ bitField cb))
  | .txByte d => .cmd (cmdWord 0x10#8 (0#24 ++ d))
  | .txIntToken v => .cmd (cmdWord 0x11#8 v)
  | .txInt32 v => .cmd (cmdWord 0x12#8 v)
  | .illegal w => .cmd w
  | .rxByte b => .rx b
  | .frmTake => .frm 0x00010000#32
  | .txTake => .tx 0x00#8
  | .reset => .rst

end Sys2Proof
end

