-- ==== Sys2Proof/Machine/Operands.lean ====
section
/-! DEFINITION. The helper functions of spec/00_scope.md (R9, R12), and what the encoders compute from their
operands: the token of an integer (spec/41_encoder.md R93) and the big-endian block (spec/20_memory.md R43). -/

namespace Sys2Proof.Machine

/-- `sint32`: the i32 with the two's-complement bits `x` (R9). -/
def sint32 (x : Operand) : Int :=
  if x.toNat < 2 ^ 31 then (x.toNat : Int) else (x.toNat : Int) - 2 ^ 32

/-- `u32`: the bits of an i32, the least non-negative residue mod 2^32 (R9). -/
def u32 (v : Int) : Operand := BitVec.ofNat 32 (v % 2 ^ 32).toNat

/-- `abs`: the mathematical absolute value, with no wrap-around (R9). -/
abbrev absNat (v : Int) : Nat := v.natAbs

/-- The decimal digits of `m`, most significant first, by recursion on a bound of their number. -/
def decDigits : Nat → Nat → List Nat
  | 0, m => [m % 10]
  | fuel + 1, m => if m < 10 then [m] else decDigits fuel (m / 10) ++ [m % 10]

/-- `dec`: "its decimal digits, most significant first, with no leading zero; dec(0) = [0]" (R12). -/
def dec (m : Nat) : List Nat := decDigits m m

/-- `pad3`: zeros in front up to at least three digits (R12). -/
def pad3 (ds : List Nat) : List Nat := List.replicate (3 - ds.length) 0 ++ ds

/-- `ascii_digit`: 0x30 + d (R12). -/
def asciiDigit (d : Nat) : Byte := BitVec.ofNat 8 (0x30 + d)

/-- `is_ascii`: b <= 0x7F (R12). -/
def isAscii (b : Byte) : Bool := decide (b.toNat ≤ 0x7F)

/-- The sign character of a token: `'1'` if v >= 0, `'0'` if v < 0 (R93). -/
def signByte (v : Int) : Byte := if 0 ≤ v then 0x31#8 else 0x30#8

/-- `tok`: the token of an i32 value (R93). -/
def tok (v : Int) : List Byte := signByte v :: (pad3 (dec (absNat v))).map asciiDigit

/-- The magnitude bound of REJECT: abs(v) >= 1000 (R22, R94). -/
def tooWide (v : Int) : Bool := decide (1000 ≤ absNat v)

/-- `be32`: the four bytes of x, most significant first (R43, R96). -/
def be32 (x : Operand) : List Byte :=
  [x.extractLsb' 24 8, x.extractLsb' 16 8, x.extractLsb' 8 8, x.extractLsb' 0 8]

end Sys2Proof.Machine
end

