-- ==== Sys2Proof/Machine/State.lean ====
section
/-! DEFINITION. The state of FRAMEC (spec/10_state.md) and of the agents around it, as plain data, and the state
after reset. -/

namespace Sys2Proof.Machine

/-- A frame record, with every field R31 gives it. -/
structure FrameRecord where
  /-- PAYLOAD: the payload bytes the frame carries. -/
  payload : List Byte
  /-- LEN = len(PAYLOAD), a 16-bit number. -/
  len : BitVec 16
  /-- EMPTY: 1 exactly when LEN = 0. -/
  empty : Bool
  /-- NONASCII: 1 exactly when some byte of PAYLOAD is above 0x7F. -/
  nonascii : Bool
  /-- HEADLESS: no head marker preceded the tail since the last tail marker or reset. -/
  headless : Bool
  /-- OVERFLOW: payload bytes were dropped because ACC was full. -/
  overflow : Bool
  deriving DecidableEq, Repr

/-- The state: the ten elements of the block (R20 to R29; R30: there is no other), then the model's own record of
the agents around it (logs 1 to 4), which is no state of the block. -/
structure State where
  /-- HEAD, the head marker (R20). -/
  head : Byte
  /-- TAIL, the tail marker (R21). -/
  tail : Byte
  /-- POLICY, the integer overflow policy (R22). -/
  policy : Policy
  /-- ACC, the accumulator (R23). -/
  acc : List Byte
  /-- ACC_OVF: a payload byte was dropped since ACC was last cleared (R24). -/
  accOvf : Bool
  /-- HEAD_SEEN: a head marker was received since the last tail marker or reset (R25). -/
  headSeen : Bool
  /-- FRM, the frame output register (R26). -/
  frm : Option FrameRecord
  /-- TXQ, the transmit queue (R27). -/
  txq : List Byte
  /-- ERR_BAD_CMD, sticky (R28). -/
  errBadCmd : Bool
  /-- ERR_VALUE_RANGE, sticky (R29). -/
  errValueRange : Bool
  /-- Model: the command words the host offers on the cmd port, in order (R49, R60; log 3). -/
  cmdIn : List CmdWord
  /-- Model: the bytes the rx source offers, in stream order (R49, R60; log 3). -/
  rxIn : List Byte
  /-- Model: the bytes the tx sink has taken, oldest first (R98; log 4). -/
  txOut : List Byte
  /-- Model: the records the frame sink has taken, oldest first (R126; log 4). -/
  frmOut : List FrameRecord
  /-- Model: the interleaving, the turns that are due, in order; the turn of an agent that must wait stays due
  (R50, R13; logs 1 and 2). -/
  turns : List Turn
  deriving DecidableEq, Repr

/-- The reasons a step halts with a fault: none. "No step of FRAMEC halts or traps the block" (R13; log 13). -/
inductive Fault where
  deriving DecidableEq, Repr

/-- The reasons a step is refused. -/
inductive Refusal where
  /-- An instruction with no meaning yet, by its mnemonic; raised by no instruction of this model (safe). -/
  | notModelled (mnemonic : String)
  deriving DecidableEq, Repr

/-- The machine after reset and at power-on (R190, R192): every element at its reset value, nothing offered,
nothing delivered, no turn to run (logs 1, 3, 4). -/
def State.reset : State where
  head := 0x40#8
  tail := 0x23#8
  policy := .wide
  acc := []
  accOvf := false
  headSeen := false
  frm := none
  txq := []
  errBadCmd := false
  errValueRange := false
  cmdIn := []
  rxIn := []
  txOut := []
  frmOut := []
  turns := []

end Sys2Proof.Machine
end

