-- ==== Sys2Proof/Machine/Flags.lean ====
section
/-! DEFINITION. The flags of FRAMEC: those of a frame record (spec/42_frame_decoder.md R125), the FSTAT word that
packs them (spec/30_encoding.md R68), the STATUS vector (spec/10_state.md R33), and the names of the decoder's
states (R127). -/

namespace Sys2Proof.Machine

/-- NONASCII of a payload: some byte of it is above 0x7F (R31, R125). -/
def nonasciiOf (p : List Byte) : Bool := p.any (fun b => !isAscii b)

/-- `mkframe`: the record latched at a tail, computed from the state before the tail step (R125). -/
def mkframe (s : State) : FrameRecord where
  payload := s.acc
  len := BitVec.ofNat 16 s.acc.length
  empty := s.acc.isEmpty
  nonascii := nonasciiOf s.acc
  headless := !s.headSeen
  overflow := s.accOvf

/-- FSTAT: LEN in bits 15:0, EMPTY 16, NONASCII 17, HEADLESS 18, OVERFLOW 19, bits 31:20 always 0 (R68). -/
def FrameRecord.fstat (r : FrameRecord) : Vec32 :=
  0#12 ++ bitField r.overflow ++ bitField r.headless ++ bitField r.nonascii ++ bitField r.empty ++ r.len

/-- A record whose FSTAT is the given word (bits 31:20 aside), with LEN payload bytes: what must stand in FRM for
that word to be the unit on the frm port (R68; log 10). -/
def recordOfFstat (f : Vec32) : FrameRecord where
  payload := List.replicate (f.extractLsb' 0 16).toNat (if f.getLsbD 17 then 0x80#8 else 0x00#8)
  len := f.extractLsb' 0 16
  empty := f.getLsbD 16
  nonascii := f.getLsbD 17
  headless := f.getLsbD 18
  overflow := f.getLsbD 19

/-- rx_ready: the rx port can take a byte, "S.FRM = none" (R120). -/
def State.rxReady (s : State) : Bool := s.frm.isNone

/-- STATUS, a function of the state (R33): FRM_VALID 0, RX_READY 1, ACC_NONEMPTY 2, HEAD_SEEN 3, ACC_OVF 4,
ERR_BAD_CMD 5, ERR_VALUE_RANGE 6, POLICY 7, bits 15:8 always 0, HEAD 23:16, TAIL 31:24. -/
def State.status (s : State) : Vec32 :=
  s.tail ++ s.head ++ 0#8 ++ bitField s.policy.bit ++ bitField s.errValueRange ++ bitField s.errBadCmd
    ++ bitField s.accOvf ++ bitField s.headSeen ++ bitField (!s.acc.isEmpty) ++ bitField s.rxReady
    ++ bitField s.frm.isSome

/-- The named states of the packet boundary state machine (R127). -/
inductive DecoderState where
  | idle
  | loose
  | accum
  | pending
  deriving DecidableEq, Repr

/-- Which state the decoder is in: no variable of its own, a name for a condition on the elements (R127). -/
def State.decoderState (s : State) : DecoderState :=
  match s.frm with
  | some _ => .pending
  | none => if s.headSeen then .accum else if s.acc.isEmpty then .idle else .loose

end Sys2Proof.Machine
end

