-- ==== Sys2Proof/Machine/Ops.lean ====
section
/-! DEFINITION. The shared operations of the meanings: the primitives of spec/00_scope.md R11, the enabling
conditions (R10, R90, R120), what a port delivers (R98, R126), and reset (spec/70_reset_and_hazards.md R190). The
two error primitives are all FRAMEC has in place of an exception: nothing is saved and control goes nowhere
(R178). -/

namespace Sys2Proof.Machine

/-- What every meaning answers. -/
abbrev Result := Host.Outcome State Fault Refusal

/-- `enabled if c` (R10): the step `t` happens when its condition holds; else it cannot happen and the agent waits
with the state as it is (log 2). -/
def whenEnabled (c : Bool) (t s : State) : Result := if c then .next t else .next s

/-! ### Primitives of R11 -/

/-- `emit_tx`: the bytes are appended to the end of TXQ, in order and contiguous (R11, R90). -/
def emitTx (l : List Byte) (s : State) : State := { s with txq := s.txq ++ l }

/-- `latch_frm`: FRM is set to the record (R11). -/
def latchFrm (r : FrameRecord) (s : State) : State := { s with frm := some r }

/-- `raise BadCommand`: ERR_BAD_CMD <- 1 and no other effect (R11, R154). -/
def raiseBadCommand (s : State) : State := { s with errBadCmd := true }

/-- `raise ValueOutOfRange`: ERR_VALUE_RANGE <- 1 and no other effect (R11, R94). -/
def raiseValueOutOfRange (s : State) : State := { s with errValueRange := true }

/-! ### Configuration and flags -/

/-- HEAD and TAIL are written (R151). -/
def setMarkerRegs (head tail : Byte) (s : State) : State := { s with head := head, tail := tail }

/-- POLICY is written (R152). -/
def setPolicyReg (p : Policy) (s : State) : State := { s with policy := p }

/-- The sticky flags that CV and CB choose are cleared (R153). -/
def clearErrFlags (cv cb : Bool) (s : State) : State :=
  { s with errBadCmd := s.errBadCmd && !cb, errValueRange := s.errValueRange && !cv }

/-! ### The room rule -/

/-- `len(S.TXQ) + n <= depth`: the `n` bytes fit in the queue (R90). -/
def fitsIn (depth n : Nat) (s : State) : Bool := decide (s.txq.length + n ≤ depth)

/-- The `n` bytes fit in TXQ (R90, R6). -/
def roomFor (n : Nat) (s : State) : Bool := fitsIn Config.txDepth n s

/-- TX_INT_TOKEN refuses the value: POLICY = REJECT and abs(v) >= 1000 (R94). -/
def refusesValue (v : Operand) (p : Policy) : Bool := decide (p = .reject) && tooWide (sint32 v)

/-! ### The branches of rx.byte -/

/-- Head branch (R122). -/
def headBranch (s : State) : State := { s with acc := [], accOvf := false, headSeen := true }

/-- Tail branch (R123): the record of the state before the step is latched, then the accumulator is cleared. -/
def tailBranch (s : State) : State :=
  { latchFrm (mkframe s) s with acc := [], accOvf := false, headSeen := false }

/-- Payload branch (R124), for an accumulator of `cap` bytes: the byte is kept if there is room, else dropped with
ACC_OVF set. -/
def payloadBranch (cap : Nat) (b : Byte) (s : State) : State :=
  if s.acc.length < cap then { s with acc := s.acc ++ [b] } else { s with accOvf := true }

/-- One rx byte takes exactly one branch, head first, then tail, then payload (R121, R175). -/
def rxBranch (cap : Nat) (b : Byte) (s : State) : State :=
  if b = s.head then headBranch s else if b = s.tail then tailBranch s else payloadBranch cap b s

/-! ### Delivery -/

/-- The byte leaves on the tx port (R98; log 4). -/
def deliverTx (b : Byte) (s : State) : State := { s with txOut := s.txOut ++ [b] }

/-- The record leaves on the frm port (R126; log 4). -/
def deliverFrm (r : FrameRecord) (s : State) : State := { s with frmOut := s.frmOut ++ [r] }

/-- TXQ without the byte the tx sink takes (R98). -/
def setTxq (l : List Byte) (s : State) : State := { s with txq := l }

/-- FRM <- none (R126). -/
def clearFrm (s : State) : State := { s with frm := none }

/-! ### Reset -/

/-- A reset event (R190): the ten elements of the block at their reset values; what the agents offer and what they
have taken is not touched (R191). -/
def resetBlock (s : State) : State :=
  { s with
    head := 0x40#8, tail := 0x23#8, policy := .wide, acc := [], accOvf := false, headSeen := false, frm := none,
    txq := [], errBadCmd := false, errValueRange := false }

end Sys2Proof.Machine
end

