-- ==== Sys2Proof/Machine/Control.lean ====
section
/-! DEFINITION. The control family (spec/43_control.md) and the reset event (spec/70_reset_and_hazards.md R190). A
word with a reserved bit set never reaches a meaning of this file but execIllegal: decoding comes first (R64,
R174). -/

namespace Sys2Proof.Machine

/-- NOP: no state changes (R150). -/
def execNop (s : State) : Result := .next s

/-- SET_MARKERS: HEAD and TAIL; ACC, ACC_OVF, HEAD_SEEN and FRM are not changed (R151). -/
def execSetMarkers (head tail : Byte) (s : State) : Result := .next (setMarkerRegs head tail s)

/-- SET_POLICY: POLICY (R152). -/
def execSetPolicy (p : Policy) (s : State) : Result := .next (setPolicyReg p s)

/-- CLEAR_ERR: the chosen sticky flags (R153). -/
def execClearErr (cv cb : Bool) (s : State) : Result := .next (clearErrFlags cv cb s)

/-- An illegal word: BadCommand; the word is not recorded (R154, R172). -/
def execIllegal (_w : CmdWord) (s : State) : Result := .next (raiseBadCommand s)

/-- A reset event: always enabled (R190, R191). -/
def execReset (s : State) : Result := .next (resetBlock s)

end Sys2Proof.Machine
end

