-- ==== Sys2Proof/Machine/Encoder.lean ====
section
/-! DEFINITION. The encoder family (spec/41_encoder.md): TX_BYTE, TX_INT_TOKEN, TX_INT32 and the tx sink's step. -/

namespace Sys2Proof.Machine

/-- TX_BYTE: the byte as is; waits until it fits in TXQ (R92). -/
def execTxByte (d : Byte) (s : State) : Result := whenEnabled (roomFor 1 s) (emitTx [d] s) s

/-- TX_INT_TOKEN: the token of the value, or ValueOutOfRange under REJECT with no byte and no wait (R94). -/
def execTxIntToken (v : Operand) (s : State) : Result :=
  if refusesValue v s.policy then .next (raiseValueOutOfRange s)
  else whenEnabled (roomFor (tok (sint32 v)).length s) (emitTx (tok (sint32 v)) s) s

/-- TX_INT32: four big-endian bytes (R97). -/
def execTxInt32 (v : Operand) (s : State) : Result := whenEnabled (roomFor 4 s) (emitTx (be32 v) s) s

/-- tx.take: the first byte of TXQ is removed and delivered; waits while TXQ is empty (R98). -/
def execTxTake (s : State) : Result :=
  match s.txq with
  | [] => .next s
  | b :: rest => .next (deliverTx b (setTxq rest s))

end Sys2Proof.Machine
end

