-- ==== Sys2Proof/Machine/FrameDecoder.lean ====
section
/-! DEFINITION. The frame decoder family (spec/42_frame_decoder.md): rx.byte and frm.take. -/

namespace Sys2Proof.Machine

/-- rx.byte: one byte judged against the markers, head first; waits while a record is in FRM (R120, R121). -/
def execRxByte (b : Byte) (s : State) : Result :=
  whenEnabled s.rxReady (rxBranch Config.accCap b s) s

/-- frm.take: the record in FRM is delivered and FRM emptied; waits while FRM is none (R126). -/
def execFrmTake (s : State) : Result :=
  match s.frm with
  | none => .next s
  | some r => .next (clearFrm (deliverFrm r s))

end Sys2Proof.Machine
end

