-- ==== Sys2Proof/Machine/Dispatch.lean ====
section
/-! DEFINITION. One arm per instruction, each one call of its meaning. -/

namespace Sys2Proof.Machine

def exec (i : Instr) (s : State) : Host.Outcome State Fault Refusal :=
  match i with
  | .nop => Sys2Proof.Machine.execNop s
  | .setMarkers head tail => Sys2Proof.Machine.execSetMarkers head tail s
  | .setPolicy p => Sys2Proof.Machine.execSetPolicy p s
  | .clearErr cv cb => Sys2Proof.Machine.execClearErr cv cb s
  | .txByte d => Sys2Proof.Machine.execTxByte d s
  | .txIntToken v => Sys2Proof.Machine.execTxIntToken v s
  | .txInt32 v => Sys2Proof.Machine.execTxInt32 v s
  | .illegal w => Sys2Proof.Machine.execIllegal w s
  | .rxByte b => Sys2Proof.Machine.execRxByte b s
  | .frmTake => Sys2Proof.Machine.execFrmTake s
  | .txTake => Sys2Proof.Machine.execTxTake s
  | .reset => Sys2Proof.Machine.execReset s

end Sys2Proof.Machine
end

