-- ==== Sys2Proof/Machine/Ports.lean ====
section
/-! DEFINITION. The ports between the block and its agents (spec/30_encoding.md R60, spec/60_exceptions.md R181):
which unit is on an agent's port, when the step of an instruction is enabled, and what the taking of a unit removes
from what its agent offers. `step` only puts these together. -/

namespace Sys2Proof.Machine

/-- The unit on the agent's port: the head of what the host or the rx source offers, the record in FRM, the first
byte of TXQ, or a reset event; none where no unit can cross (R60, R67 to R69, R181). -/
def State.unitFor (s : State) : Agent → Option PortUnit
  | .host => s.cmdIn.head?.map .cmd
  | .rxSource => s.rxIn.head?.map .rx
  | .frameSink => s.frm.map (fun r => .frm r.fstat)
  | .txSink => s.txq.head?.map .tx
  | .resetSource => some .rst

/-- `nbytes`: how many bytes a command emits (R91); no other step emits any. -/
def nbytes (p : Policy) : Instr → Nat
  | .txByte _ => 1
  | .txInt32 _ => 4
  | .txIntToken v => if refusesValue v p then 0 else (tok (sint32 v)).length
  | .nop => 0
  | .setMarkers _ _ => 0
  | .setPolicy _ => 0
  | .clearErr _ _ => 0
  | .illegal _ => 0
  | .rxByte _ => 0
  | .frmTake => 0
  | .txTake => 0
  | .reset => 0

/-- The enabling condition of each step: the room rule for a command that emits bytes (R90, R92, R94, R97), FRM
empty for rx.byte (R120), FRM full for frm.take (R126), TXQ not empty for tx.take (R98); a command that emits
nothing and a reset event are always enabled (R94, R150 to R154, R190). -/
def enabled (i : Instr) (s : State) : Bool :=
  match i with
  | .nop => true
  | .setMarkers _ _ => true
  | .setPolicy _ => true
  | .clearErr _ _ => true
  | .illegal _ => true
  | .txByte d => roomFor (nbytes s.policy (.txByte d)) s
  | .txIntToken v => refusesValue v s.policy || roomFor (nbytes s.policy (.txIntToken v)) s
  | .txInt32 v => roomFor (nbytes s.policy (.txInt32 v)) s
  | .rxByte _ => s.rxReady
  | .frmTake => s.frm.isSome
  | .txTake => !s.txq.isEmpty
  | .reset => true

/-- The turns that are due are these. -/
def setTurns (ts : List Turn) (s : State) : State := { s with turns := ts }

/-- The unit an agent offered is taken off its port (R49); the sinks' units leave by their own steps, and a reset
event consumes no offer (R191). -/
def takeOffer (a : Agent) (s : State) : State :=
  match a with
  | .host => { s with cmdIn := s.cmdIn.drop 1 }
  | .rxSource => { s with rxIn := s.rxIn.drop 1 }
  | .frameSink => s
  | .txSink => s
  | .resetSource => s

/-- The instruction an agent would run now: the decoding of the unit on its port, if its step is enabled; none where
the agent must wait (R10, R13; log 2). -/
def State.readyInstr (s : State) (a : Agent) : Option Instr :=
  match s.unitFor a with
  | none => none
  | some u => if enabled (decode u) s then some (decode u) else none

/-- The agent whose turn it is; a drain is the tx sink's (R73, R181). -/
def turnAgent : Turn → Agent
  | .once a => a
  | .drain => .txSink

/-- What is left of a turn once its agent has stepped: a drain goes on until TXQ is empty (R73; log 15). -/
def turnLeft : Turn → List Turn
  | .once _ => []
  | .drain => [.drain]

/-- What a step does: the agent and the instruction it runs (none where a drain is over), and the turns left. -/
abbrev Move := Option (Agent × Instr) × List Turn

/-- What the turn `t`, with `ts` behind it, does now; none where its agent must wait, or has an earlier turn that waits
(it is among `waiting`): an agent's turns come in order (R73). A drain that finds TXQ empty is over (log 15). -/
def State.moveOf (s : State) (waiting : List Agent) (t : Turn) (ts : List Turn) : Option Move :=
  if turnAgent t ∈ waiting then none
  else
    match s.readyInstr (turnAgent t) with
    | some i => some (some (turnAgent t, i), turnLeft t ++ ts)
    | none =>
      match t with
      | .once _ => none
      | .drain => some (none, ts)

/-- What the first of the due turns that can move does, the agents of `waiting` having turns before these that wait; a
turn that must wait stays where it is, and its offer stays on the port (R13, R49, R120, R191; log 2). None where every
turn due must wait. -/
def State.nextMove (s : State) : List Agent → List Turn → Option Move
  | _, [] => none
  | waiting, t :: ts =>
    match s.moveOf waiting t ts with
    | some m => some m
    | none => (s.nextMove (turnAgent t :: waiting) ts).map (fun m => (m.1, t :: m.2))

/-- The state with the unit `u` first on its port and its agent's turn first: a command or rx byte before what is
offered already; for a frm unit a record with that FSTAT in FRM, for a tx unit the byte first in TXQ (log 10). -/
def State.withUnit (u : PortUnit) (s : State) : State :=
  match u with
  | .cmd w => { s with cmdIn := w :: s.cmdIn, turns := .once .host :: s.turns }
  | .rx b => { s with rxIn := b :: s.rxIn, turns := .once .rxSource :: s.turns }
  | .tx b => { s with txq := b :: s.txq, turns := .once .txSink :: s.turns }
  | .frm f => { s with frm := some (recordOfFstat f), turns := .once .frameSink :: s.turns }
  | .rst => { s with turns := .once .resetSource :: s.turns }

/-- The state with a table row's bits as the next unit; where the bits are no unit of the row's port, nothing is
placed (logs 6, 10). -/
def State.withTableWord (s : State) (nbits w : Nat) : State :=
  match tablePort nbits with
  | none => s
  | some p =>
    match decodeBits p nbits w with
    | .ok _ => s.withUnit (unitOfBits p w)
    | .error _ => s

end Sys2Proof.Machine
end

