-- ==== Sys2Proof/Machine/Step.lean ====
section
/-! DEFINITION. One step: one turn of one agent (R10, R50, R181). -/

namespace Sys2Proof.Machine

/-- One step. Of the turns that are due, the first whose agent can step moves: the unit is taken off its port and its
instruction runs (R10, R49, R50). An agent that must wait keeps its offer and its turn (R13; log 2), and where none
can step the block holds its state (R182). -/
def step (s : State) : Host.Outcome State Fault Refusal :=
  match s.nextMove [] s.turns with
  | none => .next s
  | some (none, ts) => .next (setTurns ts s)
  | some (some (a, i), ts) => exec i (takeOffer a (setTurns ts s))

/-- The instruction with the bits `w` placed where the very next step takes it (logs 3, 6, 10). -/
def State.withFetchWord (s : State) (nbits w : Nat) : State := s.withTableWord nbits w

end Sys2Proof.Machine
end

