-- ==== Sys2Proof/Machine/Assembler.lean ====
section
/-! DEFINITION. The assembler of spec/30_encoding.md section 5 and 6, from statements to command words and port
steps (R72 to R77), and how a program is loaded into the state (R73; log 3). The written form of a statement (R71)
is Sys2Proof/Machine/Lexer.lean. -/

namespace Sys2Proof.Machine

/-- A number as it is written (R71): decimal (a character literal is the decimal of its code), or hexadecimal. -/
inductive Num where
  | dec (v : Int)
  | hex (n : Nat)
  deriving DecidableEq, Repr

/-- The value of a number. -/
def Num.value : Num → Int
  | .dec v => v
  | .hex n => n

/-- A statement: a command (R72), a port statement (R73) or a pseudo-instruction (R74 to R77). -/
inductive Stmt where
  | nop
  | setMarkers (head tail : Num)
  | setPolicy (p : Policy)
  | clearErr (mask : Num)
  | clearErrAll
  | txByte (b : Num)
  | txIntToken (v : Num)
  | txInt32 (v : Num)
  | word (w : Num)
  | rx (bs : List Num)
  | rxText (s : List Char)
  | take
  | txtake (n : Num)
  | txdrain
  | reset
  | txBytes (bs : List Num)
  | encIntArray (head vs tail : List Num)
  | encScalarInt (head : List Num) (v : Num) (tail : List Num)
  | txAscii (s : List Char)
  | encText (s h t : List Char)
  deriving DecidableEq, Repr

/-- Why the assembler refuses a statement; it then emits no word for the whole of it (R72, R77). -/
inductive AsmError where
  /-- The line is no sequence of the tokens of R71. -/
  | lexical
  /-- The tokens are no statement of R72 to R77. -/
  | noSuchStatement
  /-- A byte operand outside 0..255 (R72). -/
  | byteRange (v : Int)
  /-- A clear_err mask outside 0..3 (R72). -/
  | maskRange (v : Int)
  /-- An integer operand outside the i32 range and no 32-bit hexadecimal (R72). -/
  | intRange (v : Int)
  /-- A .word operand outside 0..2^40-1 (R72). -/
  | wordRange (v : Int)
  /-- A txtake count below 0 (log 15). -/
  | countRange (v : Int)
  /-- A character with a code point above 127 (R77). -/
  | nonAscii (code : Nat)
  deriving DecidableEq, Repr

/-- What one line makes happen, in order: a command word on the cmd port, or a step of another agent (R73). -/
inductive Item where
  | cmd (w : CmdWord)
  | rx (b : Byte)
  | take
  | txTake
  | txDrain
  | reset
  deriving DecidableEq, Repr

/-! ### Operand ranges -/

/-- A byte operand, in 0..255 (R72). -/
def asmByte (n : Num) : Except AsmError Byte :=
  if 0 ≤ n.value ∧ n.value ≤ 255 then .ok (BitVec.ofNat 8 n.value.toNat) else .error (.byteRange n.value)

/-- A clear_err mask, in 0..3, as the operand (R72). -/
def asmMask (n : Num) : Except AsmError Operand :=
  if 0 ≤ n.value ∧ n.value ≤ 3 then .ok (BitVec.ofNat 32 n.value.toNat) else .error (.maskRange n.value)

/-- An integer operand: in -2^31..2^31-1, or a hexadecimal 0x00000000..0xFFFFFFFF taken as bits (R72). -/
def asmInt (n : Num) : Except AsmError Operand :=
  match n with
  | .dec v => if -(2 ^ 31) ≤ v ∧ v ≤ 2 ^ 31 - 1 then .ok (BitVec.ofInt 32 v) else .error (.intRange v)
  | .hex h => if h ≤ 0xFFFFFFFF then .ok (BitVec.ofNat 32 h) else .error (.intRange h)

/-- A .word operand, in 0..2^40-1 (R72). -/
def asmWord (n : Num) : Except AsmError CmdWord :=
  if 0 ≤ n.value ∧ n.value ≤ 2 ^ 40 - 1 then .ok (BitVec.ofNat 40 n.value.toNat)
  else .error (.wordRange n.value)

/-- A character as a byte, refused above 127 (R77). -/
def asmChar (c : Char) : Except AsmError Byte :=
  if c.toNat ≤ 127 then .ok (BitVec.ofNat 8 c.toNat) else .error (.nonAscii c.toNat)

/-- Every element converted, or the first refusal: a statement is refused as a whole (R72, R77). -/
def asmAll {α β : Type} (f : α → Except AsmError β) : List α → Except AsmError (List β)
  | [] => .ok []
  | a :: as =>
    match f a, asmAll f as with
    | .ok b, .ok bs => .ok (b :: bs)
    | .error e, _ => .error e
    | .ok _, .error e => .error e

/-! ### Command words (the word column of R72) -/

/-- `tx_byte b`. -/
def txByteItem (b : Byte) : Item := .cmd (cmdWord 0x10#8 (0#24 ++ b))

/-- `tx_int_token v`. -/
def txTokenItem (v : Operand) : Item := .cmd (cmdWord 0x11#8 v)

/-- `tx_int32 v`. -/
def txInt32Item (v : Operand) : Item := .cmd (cmdWord 0x12#8 v)

/-- `tx_bytes`, one tx_byte per byte (R74). -/
def txBytesItems (bs : List Byte) : List Item := bs.map txByteItem

/-- `enc_int_array` (R75). -/
def encIntArrayItems (h : List Byte) (vs : List Operand) (t : List Byte) : List Item :=
  txBytesItems h ++ vs.map txTokenItem ++ txBytesItems t

/-- `enc_scalar_int` (R76). -/
def encScalarIntItems (h : List Byte) (v : Operand) (t : List Byte) : List Item :=
  txBytesItems h ++ [txInt32Item v] ++ txBytesItems t

/-- Assembling one statement (R72 to R77). -/
def assemble : Stmt → Except AsmError (List Item)
  | .nop => .ok [.cmd 0x0000000000#40]
  | .setMarkers h t =>
    match asmByte h, asmByte t with
    | .ok hb, .ok tb => .ok [.cmd (cmdWord 0x01#8 (0#16 ++ tb ++ hb))]
    | .error e, _ => .error e
    | .ok _, .error e => .error e
  | .setPolicy .wide => .ok [.cmd 0x0200000000#40]
  | .setPolicy .reject => .ok [.cmd 0x0200000001#40]
  | .clearErr m => (asmMask m).map (fun x => [.cmd (cmdWord 0x03#8 x)])
  | .clearErrAll => .ok [.cmd 0x0300000003#40]
  | .txByte b => (asmByte b).map (fun x => [txByteItem x])
  | .txIntToken v => (asmInt v).map (fun x => [txTokenItem x])
  | .txInt32 v => (asmInt v).map (fun x => [txInt32Item x])
  | .word w => (asmWord w).map (fun x => [.cmd x])
  | .rx bs => (asmAll asmByte bs).map (fun xs => xs.map .rx)
  | .rxText s => (asmAll asmChar s).map (fun xs => xs.map .rx)
  | .take => .ok [.take]
  | .txtake n => if 0 ≤ n.value then .ok (List.replicate n.value.toNat .txTake) else .error (.countRange n.value)
  | .txdrain => .ok [.txDrain]
  | .reset => .ok [.reset]
  | .txBytes bs => (asmAll asmByte bs).map txBytesItems
  | .encIntArray h vs t =>
    match asmAll asmByte h, asmAll asmInt vs, asmAll asmByte t with
    | .ok hs, .ok xs, .ok ts => .ok (encIntArrayItems hs xs ts)
    | .error e, _, _ => .error e
    | .ok _, .error e, _ => .error e
    | .ok _, .ok _, .error e => .error e
  | .encScalarInt h v t =>
    match asmAll asmByte h, asmInt v, asmAll asmByte t with
    | .ok hs, .ok x, .ok ts => .ok (encScalarIntItems hs x ts)
    | .error e, _, _ => .error e
    | .ok _, .error e, _ => .error e
    | .ok _, .ok _, .error e => .error e
  | .txAscii s => (asmAll asmChar s).map txBytesItems
  | .encText s h t => (asmAll asmChar (h ++ s ++ t)).map txBytesItems

/-! ### Loading a program -/

/-- The command words of a program, in order. -/
def Item.word? : Item → Option CmdWord
  | .cmd w => some w
  | .rx _ => none
  | .take => none
  | .txTake => none
  | .txDrain => none
  | .reset => none

/-- The rx bytes of a program, in order. -/
def Item.rxByte? : Item → Option Byte
  | .rx b => some b
  | .cmd _ => none
  | .take => none
  | .txTake => none
  | .txDrain => none
  | .reset => none

/-- The turn of a line item: one agent step, or for txdrain the tx sink's steps until TXQ is empty (R73). -/
def Item.turn : Item → Turn
  | .cmd _ => .once .host
  | .rx _ => .once .rxSource
  | .take => .once .frameSink
  | .txTake => .once .txSink
  | .txDrain => .drain
  | .reset => .once .resetSource

/-- Loading a program: its words and bytes are offered behind what is offered already, and its lines run in the
order written, behind the turns already due; an offer that must wait stays offered while later lines of other agents
run, and is taken once it can be (R73, R120, R191; logs 2 and 3). -/
def State.load (items : List Item) (s : State) : State :=
  { s with
    cmdIn := s.cmdIn ++ items.filterMap Item.word?
    rxIn := s.rxIn ++ items.filterMap Item.rxByte?
    turns := s.turns ++ items.map Item.turn }

end Sys2Proof.Machine
end

