-- ==== Sys2Proof/Machine/Lexer.lean ====
section
/-! DEFINITION. The written form of programs (spec/30_encoding.md R71 to R77): from the characters of a line to a
statement. What R71 leaves open (blanks, which characters a mnemonic has, letter case of hexadecimal digits) is
log 15. -/

namespace Sys2Proof.Machine

/-- The tokens of a line (R71). -/
inductive Token where
  | name (cs : List Char)
  | num (n : Num)
  | str (cs : List Char)
  | openList
  | closeList
  | comma
  deriving DecidableEq, Repr

/-- What the lexer is in the middle of; accumulated characters stand last first. -/
inductive LexMode where
  | idle
  | name (rev : List Char)
  | minus
  | zero (neg : Bool)
  | dec (neg : Bool) (v : Nat)
  | hexStart
  | hex (v : Nat)
  | chrOpen
  | chrClose (c : Char)
  | str (rev : List Char)
  | comment
  deriving DecidableEq, Repr

/-- A decimal digit's value. -/
def decDigit? (c : Char) : Option Nat :=
  if 0x30 ≤ c.toNat ∧ c.toNat ≤ 0x39 then some (c.toNat - 0x30) else none

/-- A hexadecimal digit's value, in either letter case (log 15). -/
def hexDigit? (c : Char) : Option Nat :=
  if 0x30 ≤ c.toNat ∧ c.toNat ≤ 0x39 then some (c.toNat - 0x30)
  else if 0x41 ≤ c.toNat ∧ c.toNat ≤ 0x46 then some (c.toNat - 0x41 + 10)
  else if 0x61 ≤ c.toNat ∧ c.toNat ≤ 0x66 then some (c.toNat - 0x61 + 10)
  else none

/-- "Mnemonics are lower case" (R71): a letter a to z. -/
def isLower (c : Char) : Bool := decide (0x61 ≤ c.toNat ∧ c.toNat ≤ 0x7A)

/-- A character that may follow in a mnemonic: a lower-case letter, a digit or `_`. -/
def isNameChar (c : Char) : Bool := isLower c || (decDigit? c).isSome || c.toNat == 0x5F

/-- A printable ASCII character (R71). -/
def isPrintable (c : Char) : Bool := decide (0x20 ≤ c.toNat ∧ c.toNat ≤ 0x7E)

/-- A decimal with its sign. -/
def signedNum (neg : Bool) (v : Nat) : Num := .dec (if neg then -(v : Int) else v)

/-- The lexer between two tokens, on one character. -/
def lexStart (c : Char) : Except AsmError (List Token × LexMode) :=
  if c.toNat = 0x20 ∨ c.toNat = 0x09 then .ok ([], .idle)
  else if c.toNat = 0x3B then .ok ([], .comment)
  else if c.toNat = 0x2C then .ok ([.comma], .idle)
  else if c.toNat = 0x5B then .ok ([.openList], .idle)
  else if c.toNat = 0x5D then .ok ([.closeList], .idle)
  else if c.toNat = 0x2D then .ok ([], .minus)
  else if c.toNat = 0x27 then .ok ([], .chrOpen)
  else if c.toNat = 0x22 then .ok ([], .str [])
  else if c.toNat = 0x30 then .ok ([], .zero false)
  else if isLower c || c.toNat == 0x2E then .ok ([], .name [c])
  else
    match decDigit? c with
    | some d => .ok ([], .dec false d)
    | none => .error .lexical

/-- A token is complete, and the character `c` after it begins what follows. -/
def lexEnd (t : Token) (c : Char) : Except AsmError (List Token × LexMode) :=
  match lexStart c with
  | .ok (ts, m) => .ok (t :: ts, m)
  | .error e => .error e

/-- The lexer on one character. -/
def lexChar (m : LexMode) (c : Char) : Except AsmError (List Token × LexMode) :=
  match m with
  | .idle => lexStart c
  | .name rev => if isNameChar c then .ok ([], .name (c :: rev)) else lexEnd (.name rev.reverse) c
  | .minus =>
    match decDigit? c with
    | some 0 => .ok ([], .zero true)
    | some d => .ok ([], .dec true d)
    | none => .error .lexical
  | .zero neg =>
    if c.toNat = 0x78 ∧ neg = false then .ok ([], .hexStart)
    else
      match decDigit? c with
      | some d => .ok ([], .dec neg d)
      | none => lexEnd (.num (.dec 0)) c
  | .dec neg v =>
    match decDigit? c with
    | some d => .ok ([], .dec neg (v * 10 + d))
    | none => lexEnd (.num (signedNum neg v)) c
  | .hexStart =>
    match hexDigit? c with
    | some d => .ok ([], .hex d)
    | none => .error .lexical
  | .hex v =>
    match hexDigit? c with
    | some d => .ok ([], .hex (v * 16 + d))
    | none => lexEnd (.num (.hex v)) c
  | .chrOpen => if isPrintable c then .ok ([], .chrClose c) else .error .lexical
  | .chrClose ch => if c.toNat = 0x27 then .ok ([.num (.dec ch.toNat)], .idle) else .error .lexical
  | .str rev =>
    if c.toNat = 0x22 then .ok ([.str rev.reverse], .idle)
    else if isPrintable c || decide (0x80 ≤ c.toNat) then .ok ([], .str (c :: rev))
    else .error .lexical
  | .comment => .ok ([], .comment)

/-- The lexer at the end of the line. -/
def lexFinish : LexMode → Except AsmError (List Token)
  | .idle => .ok []
  | .comment => .ok []
  | .name rev => .ok [.name rev.reverse]
  | .zero _ => .ok [.num (.dec 0)]
  | .dec neg v => .ok [.num (signedNum neg v)]
  | .hex v => .ok [.num (.hex v)]
  | .minus => .error .lexical
  | .hexStart => .error .lexical
  | .chrOpen => .error .lexical
  | .chrClose _ => .error .lexical
  | .str _ => .error .lexical

/-- The tokens of a line (R71). -/
def lexFrom : LexMode → List Char → Except AsmError (List Token)
  | m, [] => lexFinish m
  | m, c :: cs =>
    match lexChar m c with
    | .error e => .error e
    | .ok (ts, m') => (lexFrom m' cs).map (ts ++ ·)

/-! ### Statements -/

/-- The rest of a byte or integer list after its first element. -/
def parseListTail : List Token → Option (List Num × List Token)
  | .closeList :: ts => some ([], ts)
  | .comma :: .num n :: ts => (parseListTail ts).map (fun r => (n :: r.1, r.2))
  | _ => none

/-- A list `[b0, b1, ...]` or `[]` (R71), and the tokens after it. -/
def parseList : List Token → Option (List Num × List Token)
  | .openList :: .closeList :: ts => some ([], ts)
  | .openList :: .num n :: ts => (parseListTail ts).map (fun r => (n :: r.1, r.2))
  | _ => none

/-- A list and nothing after it. -/
def parseOnlyList (ts : List Token) : Option (List Num) :=
  match parseList ts with
  | some (l, []) => some l
  | _ => none

/-- A list, a comma, and what follows. -/
def parseListComma (ts : List Token) : Option (List Num × List Token) :=
  match parseList ts with
  | some (l, .comma :: rest) => some (l, rest)
  | _ => none

/-- `enc_int_array <head>, [v0, ...], <tail>` (R75). -/
def parseEncIntArray (ts : List Token) : Option Stmt :=
  match parseListComma ts with
  | none => none
  | some (h, ts1) =>
    match parseListComma ts1 with
    | none => none
    | some (vs, ts2) => (parseOnlyList ts2).map (fun t => .encIntArray h vs t)

/-- `enc_scalar_int <head>, <v>, <tail>` (R76). -/
def parseEncScalarInt (ts : List Token) : Option Stmt :=
  match parseListComma ts with
  | some (h, .num v :: .comma :: ts1) => (parseOnlyList ts1).map (fun t => .encScalarInt h v t)
  | _ => none

/-- The statement of the mnemonic `m` with the operands `ts` (R72 to R77). DESIGN CHOICE (log 15): an absent head or
tail is written, `""` in enc_text and `[]` in enc_int_array and enc_scalar_int; a statement that leaves the operand out
is refused. -/
def parseOperands (m : List Char) (ts : List Token) : Option Stmt :=
  if m = "tx_bytes".toList then (parseOnlyList ts).map .txBytes
  else if m = "enc_int_array".toList then parseEncIntArray ts
  else if m = "enc_scalar_int".toList then parseEncScalarInt ts
  else
    match ts with
    | [] =>
      if m = "nop".toList then some .nop
      else if m = "take".toList then some .take
      else if m = "txdrain".toList then some .txdrain
      else if m = "reset".toList then some .reset
      else none
    | [.name a] =>
      if m = "set_policy".toList then
        if a = "wide".toList then some (.setPolicy .wide)
        else if a = "reject".toList then some (.setPolicy .reject)
        else none
      else if m = "clear_err".toList ∧ a = "all".toList then some .clearErrAll
      else none
    | [.num n] =>
      if m = "clear_err".toList then some (.clearErr n)
      else if m = "tx_byte".toList then some (.txByte n)
      else if m = "tx_int_token".toList then some (.txIntToken n)
      else if m = "tx_int32".toList then some (.txInt32 n)
      else if m = ".word".toList then some (.word n)
      else if m = "rx".toList then some (.rx [n])
      else if m = "txtake".toList then some (.txtake n)
      else none
    | [.num n, .comma, .num k] => if m = "set_markers".toList then some (.setMarkers n k) else none
    | [.str s] =>
      if m = "rx".toList then some (.rxText s) else if m = "tx_ascii".toList then some (.txAscii s) else none
    | [.str s, .comma, .str h, .comma, .str t] =>
      if m = "enc_text".toList then some (.encText s h t) else none
    | _ => if m = "rx".toList then (parseOnlyList ts).map .rx else none

/-- The statement of a line's tokens; a line with no token is none (R71: "One statement per line"). -/
def parseLine : List Token → Except AsmError (Option Stmt)
  | [] => .ok none
  | .name m :: ts =>
    match parseOperands m ts with
    | some st => .ok (some st)
    | none => .error .noSuchStatement
  | _ :: _ => .error .noSuchStatement

/-- Assembling one line: what it makes happen, or why the statement is refused as a whole (R71 to R77). -/
def assembleLine (cs : List Char) : Except AsmError (List Item) :=
  match lexFrom .idle cs with
  | .error e => .error e
  | .ok ts =>
    match parseLine ts with
    | .error e => .error e
    | .ok none => .ok []
    | .ok (some st) => assemble st

/-- The lines of a text: a line ends at a line feed, 0x0A, or at the end of the text. DESIGN CHOICE (log 15): nothing
else ends a line, and a carriage return is no blank, so it is a lexical error outside a comment. -/
def splitLines : List Char → List (List Char)
  | [] => [[]]
  | c :: cs =>
    match splitLines cs with
    | [] => [[c]]
    | l :: ls => if c.toNat = 0x0A then [] :: l :: ls else (c :: l) :: ls

/-- Assembling a program, line by line. -/
def assembleText (cs : List Char) : List (Except AsmError (List Item)) := (splitLines cs).map assembleLine

end Sys2Proof.Machine
end

