-- ==== Sys2Proof/Machine/HostRoutine.lean ====
section
/-! DEFINITION. The host routine of spec/42_frame_decoder.md R133: the source's `next_packet` over FRAMEC. -/

namespace Sys2Proof.Machine

/-- What the host does with a payload that is not ASCII: "DecodingError -- or r.PAYLOAD: host's choice" (R133). -/
inductive NonAsciiChoice where
  | decodingError
  | rawBytes
  deriving DecidableEq, Repr

/-- What `next_packet` returns (R133). -/
inductive PacketResult where
  | null
  | bytes (p : List Byte)
  | text (cs : List Char)
  | decodingError
  deriving DecidableEq, Repr

/-- "The ASCII string whose character codes are r.PAYLOAD, in order" (R133). -/
def asciiText (p : List Byte) : List Char := p.map (fun b => Char.ofNat b.toNat)

/-- What the routine returns for the record it has taken (R133). It ignores HEADLESS and OVERFLOW. -/
def hostNextPacket (decodeAscii : Bool) (choice : NonAsciiChoice) (r : FrameRecord) : PacketResult :=
  if r.empty then .null
  else if decodeAscii = false then .bytes r.payload
  else if r.nonascii then
    match choice with
    | .decodingError => .decodingError
    | .rawBytes => .bytes r.payload
  else .text (asciiText r.payload)

/-- One poll of the routine: while STATUS.FRM_VALID is 0 it goes on waiting (none); else the record is taken by
frm.take and the result returned with the state after (R133, R126). -/
def hostPoll (decodeAscii : Bool) (choice : NonAsciiChoice) (s : State) : Option (PacketResult × Result) :=
  if s.status.getLsbD 0 then
    s.frm.map (fun r => (hostNextPacket decodeAscii choice r, execFrmTake s))
  else none

end Sys2Proof.Machine
end

