-- ==== Sys2Proof/Machine/Reference.lean ====
section
/-! DEFINITION. Not part of FRAMEC: the reference functions the claims compare it with. The receiving side's
decoders are those of spec/95_test_vectors.md sections 1.1 and 1.2 (R4: "reference functions for testing only"), and
the source's frame decoder is the numbered algorithm spec/42_frame_decoder.md quotes in R122 to R124, with the
accumulator empty at the start of each call (R134). -/

namespace Sys2Proof.Machine

/-- The number with the given decimal digit bytes, most significant first, each less 0x30. -/
def digitsValue (ds : List Byte) : Nat := ds.foldl (fun n b => n * 10 + (b.toNat - 0x30)) 0

/-- `decode_token` (95_test_vectors.md 1.1). -/
def decodeToken : List Byte → Int
  | [] => 0
  | sign :: digits => if sign = 0x31#8 then (digitsValue digits : Int) else -(digitsValue digits : Int)

/-- `decode_scalar_int` of four bytes (95_test_vectors.md 1.2): their big-endian value as an i32. -/
def decodeScalar (b0 b1 b2 b3 : Byte) : Int :=
  sint32 (BitVec.ofNat 32 (b0.toNat * 2 ^ 24 + b1.toNat * 2 ^ 16 + b2.toNat * 2 ^ 8 + b3.toNat))

/-- The payloads the source's decoder emits on a stream, one per tail byte, from the accumulator `acc`: head first,
then tail, else append without bound (R122 to R124's quoted steps; R134). -/
def sourcePackets (head tail : Byte) : List Byte → List Byte → List (List Byte)
  | _, [] => []
  | acc, b :: bs =>
    if b = head then sourcePackets head tail [] bs
    else if b = tail then acc :: sourcePackets head tail [] bs
    else sourcePackets head tail (acc ++ [b]) bs

/-- No payload that run emits is longer than `cap` bytes: "no frame's payload exceeds ACC_CAP bytes" (R134). Bytes
that a head discards or that no tail follows are no frame's payload. -/
def sourceFits (cap : Nat) (head tail : Byte) (acc stream : List Byte) : Bool :=
  (sourcePackets head tail acc stream).all (fun p => decide (p.length ≤ cap))

/-- One call of the source's `next_packet`, from the accumulator `acc`: the payload at the first tail byte and the
stream after it; none where no tail byte comes and the call blocks (R134, R135). -/
def sourceCall (head tail : Byte) : List Byte → List Byte → Option (List Byte × List Byte)
  | _, [] => none
  | acc, b :: bs =>
    if b = head then sourceCall head tail [] bs
    else if b = tail then some (acc, bs)
    else sourceCall head tail (acc ++ [b]) bs

/-- What the source's `next_packet` returns for a payload (R133's quoted cases: null for an empty one, bytes, the
string, or the DecodingError policy). -/
def sourceResult (decodeAscii : Bool) (choice : NonAsciiChoice) (p : List Byte) : PacketResult :=
  if p = [] then .null
  else if decodeAscii = false then .bytes p
  else if nonasciiOf p then
    match choice with
    | .decodingError => .decodingError
    | .rawBytes => .bytes p
  else .text (asciiText p)

end Sys2Proof.Machine
end

