-- ==== Sys2Proof/Safety.lean ====
section
/-! DEFINITION. The terms the claims are made in: what holds of every state reachable from reset (spec/10_state.md
R31, R32), which part of the state each family may touch (spec/20_memory.md R51), and what a run conserves
(spec/41_encoder.md R90, spec/42_frame_decoder.md R134). -/

namespace Sys2Proof.Machine

/-- A frame record is as R31 says each field is, with R32 part 4: OVERFLOW only on a full payload. -/
structure FrameRecord.Wf (r : FrameRecord) : Prop where
  payload_fits : r.payload.length ≤ Config.accCap
  len_eq : r.len.toNat = r.payload.length
  empty_eq : r.empty = r.payload.isEmpty
  nonascii_eq : r.nonascii = nonasciiOf r.payload
  overflow_full : r.overflow = true → r.payload.length = Config.accCap

/-- The invariants of R32. -/
structure State.Wf (s : State) : Prop where
  /-- R32.1 -/
  acc_fits : s.acc.length ≤ Config.accCap
  /-- R32.1 -/
  txq_fits : s.txq.length ≤ Config.txDepth
  /-- R32.2 -/
  ovf_full : s.accOvf = true → s.acc.length = Config.accCap
  /-- R32.3 -/
  pending_clear : s.frm ≠ none → s.acc = [] ∧ s.accOvf = false ∧ s.headSeen = false
  /-- R32.4, of the record held -/
  frm_wf : ∀ r, s.frm = some r → r.Wf
  /-- R32.4, of the records delivered -/
  out_wf : ∀ r ∈ s.frmOut, r.Wf

/-! ### Parts of the state (R51) -/

/-- The elements rx.byte reads and writes are the same in both states (R51). -/
structure SameDecoder (s t : State) : Prop where
  head : t.head = s.head
  tail : t.tail = s.tail
  acc : t.acc = s.acc
  accOvf : t.accOvf = s.accOvf
  headSeen : t.headSeen = s.headSeen
  frm : t.frm = s.frm

/-- The elements the decoder never touches are the same in both states: the markers, the policy, the transmit queue
and the sticky flags (R136). -/
structure SameConfigAndEncoder (s t : State) : Prop where
  head : t.head = s.head
  tail : t.tail = s.tail
  policy : t.policy = s.policy
  txq : t.txq = s.txq
  errBadCmd : t.errBadCmd = s.errBadCmd
  errValueRange : t.errValueRange = s.errValueRange

/-- What the agents offer, have taken and will do is the same in both states (the model's own fields, logs 1
to 4). -/
structure SameAgents (s t : State) : Prop where
  cmdIn : t.cmdIn = s.cmdIn
  rxIn : t.rxIn = s.rxIn
  txOut : t.txOut = s.txOut
  frmOut : t.frmOut = s.frmOut
  turns : t.turns = s.turns

/-! ### Illegal words -/

/-- R65's list: an opcode outside the map, or a reserved operand bit set in a word of opcode 0x01, 0x02, 0x03 or
0x10. -/
def illegalEncoding (w : CmdWord) : Prop :=
  opcOf w ∉ [0x00#8, 0x01#8, 0x02#8, 0x03#8, 0x10#8, 0x11#8, 0x12#8] ∨
  (opcOf w = 0x01#8 ∧ (opdOf w).extractLsb' 16 16 ≠ 0#16) ∨
  (opcOf w = 0x02#8 ∧ (opdOf w).extractLsb' 1 31 ≠ 0#31) ∨
  (opcOf w = 0x03#8 ∧ (opdOf w).extractLsb' 2 30 ≠ 0#30) ∨
  (opcOf w = 0x10#8 ∧ (opdOf w).extractLsb' 8 24 ≠ 0#24)

/-! ### Runs -/

/-- The instructions one after another, each on the state the one before it left. -/
def execAll : List Instr → State → Result
  | [], s => .next s
  | i :: is, s =>
    match exec i s with
    | .next t => execAll is t
    | .fault r => .fault r
    | .refused r => .refused r

/-! ### Waiting (R10, R13) -/

/-- The turn must wait, the agents of `waiting` having earlier turns that wait: its agent is one of them (an agent's
turns come in order, R73), or it is one step of an agent that has no unit on its port or whose unit's step is not
enabled. -/
def State.mustWait (s : State) (waiting : List Agent) (t : Turn) : Prop :=
  turnAgent t ∈ waiting ∨ ∃ a, t = .once a ∧ ∀ u, s.unitFor a = some u → enabled (decode u) s = false

/-- Every one of these turns must wait, each behind those before it. -/
def State.allWait (s : State) : List Agent → List Turn → Prop
  | _, [] => True
  | waiting, t :: ts => s.mustWait waiting t ∧ s.allWait (turnAgent t :: waiting) ts

/-! ### The tx stream (R49, R90) -/

/-- The bytes a command emits: they depend on its operand and POLICY alone (R101). -/
def emitted (p : Policy) : Instr → List Byte
  | .txByte d => [d]
  | .txIntToken v => if refusesValue v p then [] else tok (sint32 v)
  | .txInt32 v => be32 v
  | .nop => []
  | .setMarkers _ _ => []
  | .setPolicy _ => []
  | .clearErr _ _ => []
  | .illegal _ => []
  | .rxByte _ => []
  | .frmTake => []
  | .txTake => []
  | .reset => []

/-- The policy the next command finds (R152). -/
def policyAfter (p : Policy) : Instr → Policy
  | .setPolicy q => q
  | .nop => p
  | .setMarkers _ _ => p
  | .clearErr _ _ => p
  | .txByte _ => p
  | .txIntToken _ => p
  | .txInt32 _ => p
  | .illegal _ => p
  | .rxByte _ => p
  | .frmTake => p
  | .txTake => p
  | .reset => p

/-- The bytes a list of offered command words will emit, from the policy `p`. -/
def pendingBytes : Policy → List CmdWord → List Byte
  | _, [] => []
  | p, w :: ws => emitted p (decodeCmd w) ++ pendingBytes (policyAfter p (decodeCmd w)) ws

/-- The whole tx stream of a state: taken, queued, and still to be emitted by the commands on offer. -/
def State.txStream (s : State) : List Byte := s.txOut ++ s.txq ++ pendingBytes s.policy s.cmdIn

/-! ### The frame stream (R134) -/

/-- The results of `next_packet` a state stands for: of the records taken, of the record in FRM, and of the source's
own decoder on the rx bytes still on offer, from the accumulator as it is. -/
def State.frameStream (decodeAscii : Bool) (choice : NonAsciiChoice) (s : State) : List PacketResult :=
  s.frmOut.map (hostNextPacket decodeAscii choice) ++ s.frm.toList.map (hostNextPacket decodeAscii choice)
    ++ (sourcePackets s.head s.tail s.acc s.rxIn).map (sourceResult decodeAscii choice)

/-- No payload of a frame in the rx bytes on offer is longer than ACC_CAP (the premise of R134). -/
def State.framesFit (s : State) : Bool := sourceFits Config.accCap s.head s.tail s.acc s.rxIn

/-- No command on offer is a SET_MARKERS ("never changed", R134). -/
def State.keepsMarkers (s : State) : Prop := ∀ w ∈ s.cmdIn, ∀ h t, decodeCmd w ≠ .setMarkers h t

/-- No reset event is among the turns that are due. -/
def State.noResetTurn (s : State) : Prop := Turn.once .resetSource ∉ s.turns

end Sys2Proof.Machine
end

