-- ==== Sys2Proof/Certificates/Slice0/Obligations.lean ====
section
/-! DEFINITION. The statements for the provers, from the numbered rules of spec/. A result is stated as the whole
next state, written as an update of the state before: what the update does not name is unchanged, so each is also
the instruction's frame and says where it completes. -/

open Sys2Proof Sys2Proof.Machine

/-! ### Encoding -/

/-- Words of every command, and illegal ones, written out in spec/95_test_vectors.md section 2.1 and in the
examples of R92, R94, R97, R150 to R154. -/
def Obligations.SpecWordsDecode : Prop :=
  decodeCmd 0x0012345678#40 = .nop ∧
  decodeCmd 0x0100000302#40 = .setMarkers 0x02#8 0x03#8 ∧
  decodeCmd 0x0100010302#40 = .illegal 0x0100010302#40 ∧
  decodeCmd 0x0200000001#40 = .setPolicy .reject ∧
  decodeCmd 0x0200000002#40 = .illegal 0x0200000002#40 ∧
  decodeCmd 0x0300000002#40 = .clearErr true false ∧
  decodeCmd 0x0300000004#40 = .illegal 0x0300000004#40 ∧
  decodeCmd 0x1000000040#40 = .txByte 0x40#8 ∧
  decodeCmd 0x1000000140#40 = .illegal 0x1000000140#40 ∧
  decodeCmd 0x11FFFFFFF4#40 = .txIntToken 0xFFFFFFF4#32 ∧
  decodeCmd 0x1280000000#40 = .txInt32 0x80000000#32 ∧
  decodeCmd 0x7F00000000#40 = .illegal 0x7F00000000#40 ∧
  decode (.rx 0x41#8) = .rxByte 0x41#8 ∧
  decode (.frm 0x00040002#32) = .frmTake ∧ decode (.tx 0x31#8) = .txTake ∧ decode .rst = .reset

/-- Every well-formed instruction, with every operand, is read back from its unit. -/
def Obligations.DecodeOfEncode : Prop :=
  ∀ i : Instr, i.wellFormed = true → decode (encode i) = i

/-- Every command word is read as a well-formed instruction of the host, and but for the operand NOP ignores the word
is that instruction's encoding: no two words that are not NOP share a reading. -/
def Obligations.EncodeOfDecode : Prop :=
  ∀ w : CmdWord, (decodeCmd w).wellFormed = true ∧ (decodeCmd w).agent = .host ∧
    (decodeCmd w ≠ .nop → encode (decodeCmd w) = .cmd w) ∧
    (decodeCmd w = .nop ↔ opcOf w = 0x00#8)

/-- R65: exactly the words it lists decode to BadCommand, and each sets ERR_BAD_CMD and changes nothing else. They
are exactly the words of no row of the opcode map. -/
def Obligations.IllegalEncodings : Prop :=
  (∀ w : CmdWord, decodeCmd w = .illegal w ↔ illegalEncoding w) ∧
  (∀ w : CmdWord, decodeCmd w = .illegal w ↔ definedWord w = false) ∧
  (∀ (w : CmdWord) (s : State), decodeCmd w = .illegal w →
    exec (decodeCmd w) s = .next { s with errBadCmd := true })

/-- Raw bits are read only at the width of the port's unit, with no bit above it and FSTAT's reserved bits 0: 40 bits
on cmd, 8 on rx and tx, 32 on frm, 1 on rst (the one bit of a reset event is spec/opcode_table.json's); and which
instruction they then are. -/
def Obligations.RawBitsRejected : Prop :=
  ∀ (nbits w : Nat) (i : Instr),
    (decodeBits .cmd nbits w = .ok i ↔ nbits = 40 ∧ w < 2 ^ 40 ∧ i = decodeCmd (BitVec.ofNat 40 w)) ∧
    (decodeBits .rx nbits w = .ok i ↔ nbits = 8 ∧ w < 2 ^ 8 ∧ i = .rxByte (BitVec.ofNat 8 w)) ∧
    (decodeBits .tx nbits w = .ok i ↔ nbits = 8 ∧ w < 2 ^ 8 ∧ i = .txTake) ∧
    (decodeBits .frm nbits w = .ok i ↔ nbits = 32 ∧ w < 2 ^ 20 ∧ i = .frmTake) ∧
    (decodeBits .rst nbits w = .ok i ↔ nbits = 1 ∧ w < 2 ∧ i = .reset)

/-! ### The step -/

/-- When the first due turn whose agent need not wait is one step of agent `a`, and `u` is the unit on its port, the
step is the meaning of the instruction `u` decodes to, that turn over and the unit taken off the offers; the turns
that must wait stay due. (The list of turns is the model's, log 1; that a waiting turn is passed over and stays due,
log 2; that an offer leaves a list, log 3.) -/
def Obligations.StepRunsDecoded : Prop :=
  ∀ (s : State) (a : Agent) (pre post : List Turn) (u : PortUnit),
    s.turns = pre ++ .once a :: post → s.allWait [] pre →
    s.unitFor a = some u → enabled (decode u) s = true →
    step s = exec (decode u) (takeOffer a { s with turns := pre ++ post })

/-- The same for each agent, in terms of the state alone: the host with an enabled command word first on offer, the rx
source with a byte on offer and FRM none, the frame sink with a record in FRM, the tx sink with a byte in TXQ, the
reset source always; and a drain, which takes a byte and stays due. (The offers and the turns are the model's, logs 1
to 3; the drain, log 15.) -/
def Obligations.StepTakesOffer : Prop :=
  ∀ (s : State) (pre post : List Turn), s.allWait [] pre →
    (∀ (w : CmdWord) (ws : List CmdWord),
      s.turns = pre ++ .once .host :: post → s.cmdIn = w :: ws → enabled (decodeCmd w) s = true →
      step s = exec (decodeCmd w) { s with turns := pre ++ post, cmdIn := ws }) ∧
    (∀ (b : Byte) (bs : List Byte),
      s.turns = pre ++ .once .rxSource :: post → s.rxIn = b :: bs → s.frm = none →
      step s = exec (.rxByte b) { s with turns := pre ++ post, rxIn := bs }) ∧
    (∀ r : FrameRecord, s.turns = pre ++ .once .frameSink :: post → s.frm = some r →
      step s = exec .frmTake { s with turns := pre ++ post }) ∧
    (∀ (b : Byte) (q : List Byte), s.turns = pre ++ .once .txSink :: post → s.txq = b :: q →
      step s = exec .txTake { s with turns := pre ++ post }) ∧
    (s.turns = pre ++ .once .resetSource :: post → step s = exec .reset { s with turns := pre ++ post }) ∧
    (∀ (b : Byte) (q : List Byte), s.turns = pre ++ .drain :: post → s.txq = b :: q → step s = exec .txTake s)

/-- When a turn must wait, in terms of the state alone: an agent's turns come in order, so a turn behind a waiting turn
of its agent waits too. Where every turn due must wait the block holds its state; a drain that finds TXQ empty is over,
but not while an earlier turn of the tx sink waits. (That a waiting turn stays due is the model's own form of a wait,
log 2; the drain, log 15.) -/
def Obligations.StepWaits : Prop :=
  (∀ s : State, s.allWait [] s.turns → step s = .next s) ∧
  (∀ (s : State) (pre post : List Turn), s.allWait [] pre → (∀ x ∈ pre, x ≠ .once .txSink ∧ x ≠ .drain) →
    s.turns = pre ++ .drain :: post → s.txq = [] → step s = .next { s with turns := pre ++ post }) ∧
  (∀ (s t : State) (rest : List Turn), s.txq = [] → s.turns = .once .txSink :: .drain :: rest → step s = .next t →
    ∃ rest', t.turns = .once .txSink :: .drain :: rest') ∧
  (∀ (s : State) (w : List Agent),
    (s.mustWait w (.once .host) ↔
      .host ∈ w ∨ ∀ c, s.cmdIn.head? = some c → enabled (decodeCmd c) s = false) ∧
    (s.mustWait w (.once .rxSource) ↔ .rxSource ∈ w ∨ s.rxIn = [] ∨ s.frm ≠ none) ∧
    (s.mustWait w (.once .frameSink) ↔ .frameSink ∈ w ∨ s.frm = none) ∧
    (s.mustWait w (.once .txSink) ↔ .txSink ∈ w ∨ s.txq = []) ∧
    (s.mustWait w (.once .resetSource) ↔ .resetSource ∈ w) ∧
    (s.mustWait w .drain ↔ .txSink ∈ w))

/-- No step halts: every step of every state answers a next state. -/
def Obligations.EveryStepGoesOn : Prop :=
  ∀ s : State, ∃ t, step s = .next t

/-- A command word, an rx byte, an FSTAT word or a reset event placed by withFetchWord is what decodeTableWord reads and
what the next step runs, exactly; the FSTAT word is that of the record placed in FRM, and a word with a reserved FSTAT
bit set is refused and places nothing. (How a unit is placed and how rows of one width are told apart is the model's
own, logs 3, 6 and 10; the one bit of a reset event is spec/opcode_table.json's.) -/
def Obligations.FetchWordIsRun : Prop :=
  (∀ (s : State) (w : Nat), w < 2 ^ 40 → enabled (decodeCmd (BitVec.ofNat 40 w)) s = true →
    decodeTableWord 40 w = some (decodeCmd (BitVec.ofNat 40 w)) ∧
    step (s.withFetchWord 40 w) = exec (decodeCmd (BitVec.ofNat 40 w)) s) ∧
  (∀ (s : State) (w : Nat), w < 2 ^ 8 → s.frm = none →
    decodeTableWord 8 w = some (.rxByte (BitVec.ofNat 8 w)) ∧
    step (s.withFetchWord 8 w) = exec (.rxByte (BitVec.ofNat 8 w)) s) ∧
  (∀ (s : State) (w : Nat), w < 2 ^ 20 →
    decodeTableWord 32 w = some .frmTake ∧
    (recordOfFstat (BitVec.ofNat 32 w)).fstat = BitVec.ofNat 32 w ∧
    step (s.withFetchWord 32 w) = exec .frmTake { s with frm := some (recordOfFstat (BitVec.ofNat 32 w)) }) ∧
  (∀ (s : State) (w : Nat), 2 ^ 20 ≤ w → decodeTableWord 32 w = none ∧ s.withFetchWord 32 w = s) ∧
  (∀ (s : State) (w : Nat), w < 2 →
    decodeTableWord 1 w = some .reset ∧ step (s.withFetchWord 1 w) = exec .reset s)

/-! ### Enabling -/

/-- R90 with R91, in a state whose TXQ is within its bound: a command is accepted exactly when all of its bytes fit,
and every command is enabled once TXQ is empty. (That exec of a step that is not enabled answers the unchanged state,
the third clause, is the model's own form of a wait, log 2; that a command of no bytes needs no room where TXQ is over
its bound, log 12, is kept out by the premise.) -/
def Obligations.RoomRule : Prop :=
  (∀ (w : CmdWord) (s : State), s.txq.length ≤ Config.txDepth →
    (enabled (decodeCmd w) s = true ↔ s.txq.length + nbytes s.policy (decodeCmd w) ≤ Config.txDepth)) ∧
  (∀ (w : CmdWord) (s : State), s.txq = [] → enabled (decodeCmd w) s = true) ∧
  (∀ (i : Instr) (s : State), enabled i s = false → exec i s = .next s)

/-- R91: the number of bytes a command emits is the number by which it lengthens TXQ. -/
def Obligations.BytesEmittedCount : Prop :=
  ∀ (w : CmdWord) (s t : State), enabled (decodeCmd w) s = true → exec (decodeCmd w) s = .next t →
    t.txq = s.txq ++ emitted s.policy (decodeCmd w) ∧
    (emitted s.policy (decodeCmd w)).length = nbytes s.policy (decodeCmd w)

/-- The head command of the cmd port, while it is not enabled, stays offered with every command behind it, and the
host's turn stays due, whatever agent steps; one byte taken by the tx sink that gives it room lets it be accepted. (That
the offers are the list cmdIn, log 3, that the turns are a list, log 1, and that a waiting turn stays due, log 2, is the
model's own.) -/
def Obligations.BlockedCommandHoldsPort : Prop :=
  (∀ (s t : State) (w : CmdWord) (ws : List CmdWord), s.cmdIn = w :: ws → enabled (decodeCmd w) s = false →
    step s = .next t → t.cmdIn = w :: ws ∧
      (∀ rest, s.turns = .once .host :: rest → ∃ rest', t.turns = .once .host :: rest')) ∧
  (∀ (s : State) (w : CmdWord) (ws : List CmdWord) (b : Byte) (q : List Byte) (rest : List Turn),
    s.turns = .once .host :: .once .txSink :: rest → s.cmdIn = w :: ws → s.txq = b :: q →
    enabled (decodeCmd w) s = false → enabled (decodeCmd w) { s with txq := q } = true →
    Sys2Proof.core.run 2 s =
      exec (decodeCmd w) { s with txq := q, txOut := s.txOut ++ [b], cmdIn := ws, turns := rest })

/-! ### The encoder family -/

/-- R92: TX_BYTE with its reserved bits 0 appends its byte when it fits, and waits while it does not; with a
reserved bit set the word is BadCommand, at any fill of TXQ.
(That exec answers the unchanged state for a wait is the model's own, log 2.) -/
def Obligations.TxByteResult : Prop :=
  (∀ (d : Byte) (s : State), s.txq.length + 1 ≤ Config.txDepth →
    exec (.txByte d) s = .next { s with txq := s.txq ++ [d] }) ∧
  (∀ (d : Byte) (s : State), Config.txDepth < s.txq.length + 1 → exec (.txByte d) s = .next s) ∧
  (∀ w : CmdWord, opcOf w = 0x10#8 → (opdOf w).extractLsb' 8 24 = 0#24 →
    decodeCmd w = .txByte ((opdOf w).extractLsb' 0 8)) ∧
  (∀ (w : CmdWord) (s : State), opcOf w = 0x10#8 → (opdOf w).extractLsb' 8 24 ≠ 0#24 →
    exec (decodeCmd w) s = .next { s with errBadCmd := true })

/-- R94: TX_INT_TOKEN refuses a value of magnitude 1000 or more under REJECT, at any fill of TXQ and with no byte;
else it appends the token when it fits, and waits while it does not. Zero counts as non-negative, the magnitude of
-2^31 does not wrap, and the token `'0','0','0','0'` is never produced.
(That exec answers the unchanged state for a wait is the model's own, log 2.) -/
def Obligations.TxIntTokenResult : Prop :=
  (∀ (v : Operand) (s : State), s.policy = .reject → 1000 ≤ (sint32 v).natAbs →
    exec (.txIntToken v) s = .next { s with errValueRange := true }) ∧
  (∀ (v : Operand) (s : State), (s.policy = .wide ∨ (sint32 v).natAbs < 1000) →
    s.txq.length + (tok (sint32 v)).length ≤ Config.txDepth →
    exec (.txIntToken v) s = .next { s with txq := s.txq ++ tok (sint32 v) }) ∧
  (∀ (v : Operand) (s : State), (s.policy = .wide ∨ (sint32 v).natAbs < 1000) →
    Config.txDepth < s.txq.length + (tok (sint32 v)).length → exec (.txIntToken v) s = .next s) ∧
  (∀ w : CmdWord, opcOf w = 0x11#8 → decodeCmd w = .txIntToken (opdOf w)) ∧
  tok 0 = [0x31#8, 0x30#8, 0x30#8, 0x30#8] ∧
  tok (-2147483648) =
    [0x30#8, 0x32#8, 0x31#8, 0x34#8, 0x37#8, 0x34#8, 0x38#8, 0x33#8, 0x36#8, 0x34#8, 0x38#8] ∧
  (∀ v : Int, tok v ≠ [0x30#8, 0x30#8, 0x30#8, 0x30#8])

/-- R97: TX_INT32 appends the four bytes of its operand, most significant first, when they fit, and waits while they
do not. (That exec answers the unchanged state for a wait is the model's own, log 2.) -/
def Obligations.TxInt32Result : Prop :=
  (∀ (v : Operand) (s : State), s.txq.length + 4 ≤ Config.txDepth →
    exec (.txInt32 v) s = .next { s with
      txq := s.txq ++ [v.extractLsb' 24 8, v.extractLsb' 16 8, v.extractLsb' 8 8, v.extractLsb' 0 8] }) ∧
  (∀ (v : Operand) (s : State), Config.txDepth < s.txq.length + 4 → exec (.txInt32 v) s = .next s) ∧
  (∀ w : CmdWord, opcOf w = 0x12#8 → decodeCmd w = .txInt32 (opdOf w))

/-- R98: tx.take removes the first byte of TXQ and delivers it, and waits while there is none. (That the delivered
byte is recorded in txOut, log 4, and that exec answers the unchanged state for a wait, log 2, is the model's own.) -/
def Obligations.TxTakeResult : Prop :=
  (∀ (b : Byte) (rest : List Byte) (s : State), s.txq = b :: rest →
    exec .txTake s = .next { s with txq := rest, txOut := s.txOut ++ [b] }) ∧
  (∀ s : State, s.txq = [] → exec .txTake s = .next s)

/-- R93: a token is its sign byte and the digits of the magnitude, padded with zeros to three.
Its length is 1 + max(3, digits), at most 11 and 4 exactly for abs(v) <= 999; every
byte is in 0x30..0x39; the sign byte is 0x31 for v >= 0 and 0x30 for v < 0. -/
def Obligations.TokenShape : Prop :=
  ∀ v : Int, -(2 ^ 31) ≤ v → v < 2 ^ 31 →
    tok v = (if 0 ≤ v then 0x31#8 else 0x30#8) ::
      (List.replicate (3 - (dec v.natAbs).length) 0 ++ dec v.natAbs).map (fun d => BitVec.ofNat 8 (0x30 + d)) ∧
    (tok v).length = 1 + max 3 (dec v.natAbs).length ∧
    (tok v).length ≤ 11 ∧
    ((tok v).length = 4 ↔ v.natAbs ≤ 999) ∧
    (∀ b ∈ tok v, 0x30 ≤ b.toNat ∧ b.toNat ≤ 0x39)

/-- The token determines the value: the reference decoder of spec/95_test_vectors.md 1.1 recovers it, for every
integer, so two values with the same token are equal. -/
def Obligations.TokenRoundTrip : Prop :=
  (∀ v : Int, decodeToken (tok v) = v) ∧ (∀ v u : Int, tok v = tok u → v = u)

/-- R12: dec gives decimal digits, with the value of the number, no leading zero, and dec(0) = [0]; two numbers with
the same digits are equal. -/
def Obligations.DecimalDigits : Prop :=
  dec 0 = [0] ∧
  (∀ m : Nat, (∀ d ∈ dec m, d < 10) ∧ (dec m).foldl (fun n d => n * 10 + d) 0 = m) ∧
  (∀ m : Nat, 0 < m → (dec m).head? ≠ some 0)

/-- R9: sint32 and u32 are inverse bijections between the 32-bit words and the i32, and abs does not wrap. -/
def Obligations.TwosComplement : Prop :=
  (∀ x : Operand, -(2 ^ 31) ≤ sint32 x ∧ sint32 x < 2 ^ 31 ∧ u32 (sint32 x) = x) ∧
  (∀ v : Int, -(2 ^ 31) ≤ v → v < 2 ^ 31 → sint32 (u32 v) = v) ∧
  (∀ v : Int, (absNat v : Int) = if 0 ≤ v then v else -v)

/-- R96: every i32 has an encoding of four bytes, from which the reference decoder of spec/95_test_vectors.md 1.2
recovers it, and every list of four bytes is the encoding of exactly one i32. -/
def Obligations.ScalarRoundTrip : Prop :=
  (∀ v : Int, -(2 ^ 31) ≤ v → v < 2 ^ 31 →
    ∃ b0 b1 b2 b3, be32 (u32 v) = [b0, b1, b2, b3] ∧ decodeScalar b0 b1 b2 b3 = v) ∧
  (∀ b0 b1 b2 b3 : Byte, ∃! v : Int, (-(2 ^ 31) ≤ v ∧ v < 2 ^ 31) ∧ be32 (u32 v) = [b0, b1, b2, b3])

/-! ### The frame decoder family -/

/-- R122: a head byte, with FRM none, empties the accumulator and sets HEAD_SEEN; no other element changes and
nothing is emitted. -/
def Obligations.HeadByteResult : Prop :=
  ∀ s : State, s.frm = none →
    exec (.rxByte s.head) s = .next { s with acc := [], accOvf := false, headSeen := true }

/-- R123 with R125: a tail byte that is no head byte, with FRM none, latches the record of the state before and
clears ACC, ACC_OVF and HEAD_SEEN. LEN is the 16 bits of len(ACC), which is len(ACC) itself while ACC is within
ACC_CAP. (What LEN is beyond that, in states no run reaches, is the model's own, log 11.) -/
def Obligations.TailByteResult : Prop :=
  ∀ s : State, s.frm = none → s.tail ≠ s.head →
    exec (.rxByte s.tail) s = .next { s with
      acc := [], accOvf := false, headSeen := false,
      frm := some {
        payload := s.acc, len := BitVec.ofNat 16 s.acc.length, empty := decide (s.acc.length = 0),
        nonascii := s.acc.any (fun b => decide (0x7F < b.toNat)), headless := !s.headSeen,
        overflow := s.accOvf } } ∧
    (s.acc.length ≤ Config.accCap → (BitVec.ofNat 16 s.acc.length).toNat = s.acc.length)

/-- R124: any other byte, with FRM none, is appended while ACC has room, and dropped with ACC_OVF set when it is
full. -/
def Obligations.PayloadByteResult : Prop :=
  (∀ (b : Byte) (s : State), s.frm = none → b ≠ s.head → b ≠ s.tail → s.acc.length < Config.accCap →
    exec (.rxByte b) s = .next { s with acc := s.acc ++ [b] }) ∧
  (∀ (b : Byte) (s : State), s.frm = none → b ≠ s.head → b ≠ s.tail → Config.accCap ≤ s.acc.length →
    exec (.rxByte b) s = .next { s with accOvf := true })

/-- R120: while a record waits in FRM no step takes an rx byte: it waits at the port, neither read nor lost, and the rx
source's turn stays due; it is taken once the record is taken, or after a reset event, under the reset state (R191).
(That the offers are the list rxIn, log 3, that the turns are a list, log 1, that a waiting turn stays due and that exec
answers the unchanged state for a wait, log 2, and frmOut, log 4, is the model's own.) -/
def Obligations.RxStallsWhilePending : Prop :=
  (∀ (b : Byte) (s : State), s.frm ≠ none → exec (.rxByte b) s = .next s) ∧
  (∀ s t : State, s.frm ≠ none → step s = .next t → t.rxIn = s.rxIn ∧
    (∀ rest, s.turns = .once .rxSource :: rest → ∃ rest', t.turns = .once .rxSource :: rest')) ∧
  (∀ (s : State) (r : FrameRecord) (b : Byte) (bs : List Byte) (rest : List Turn),
    s.turns = .once .rxSource :: .once .frameSink :: rest → s.rxIn = b :: bs → s.frm = some r →
    Sys2Proof.core.run 2 s =
      exec (.rxByte b) { s with frm := none, frmOut := s.frmOut ++ [r], rxIn := bs, turns := rest }) ∧
  (∀ (s : State) (b : Byte) (bs : List Byte) (rest : List Turn),
    s.turns = .once .rxSource :: .once .resetSource :: rest → s.rxIn = b :: bs → s.frm ≠ none →
    Sys2Proof.core.run 2 s = exec (.rxByte b) { s with
      head := 0x40#8, tail := 0x23#8, policy := .wide, acc := [], accOvf := false, headSeen := false, frm := none,
      txq := [], errBadCmd := false, errValueRange := false, rxIn := bs, turns := rest })

/-- R126: frm.take delivers the record and empties FRM, and waits while there is none. (That the delivered record is
kept in frmOut, log 4, and that exec answers the unchanged state for a wait, log 2, is the model's own.) -/
def Obligations.FrmTakeResult : Prop :=
  (∀ (r : FrameRecord) (s : State), s.frm = some r →
    exec .frmTake s = .next { s with frm := none, frmOut := s.frmOut ++ [r] }) ∧
  (∀ s : State, s.frm = none → exec .frmTake s = .next s)

/-- R127: the transition table of the packet boundary state machine, the head first. -/
def Obligations.DecoderTransitions : Prop :=
  ∀ (s t : State) (b : Byte), s.frm = none → exec (.rxByte b) s = .next t →
    (b = s.head → t.decoderState = .accum ∧ t.acc = []) ∧
    (b ≠ s.head → b = s.tail → t.decoderState = .pending ∧
      ∃ r, t.frm = some r ∧ r.headless = decide (s.decoderState ≠ .accum) ∧ r.empty = s.acc.isEmpty ∧
        (s.decoderState = .idle → r.empty = true) ∧ (s.decoderState = .loose → r.empty = false)) ∧
    (b ≠ s.head → b ≠ s.tail →
      (s.decoderState = .idle → t.decoderState = .loose) ∧ (s.decoderState = .loose → t.decoderState = .loose) ∧
      (s.decoderState = .accum → t.decoderState = .accum))

/-- R127, the other two columns: in a state that meets the invariant, taking the record of PENDING leads to IDLE,
and reset leads every state to IDLE; no command changes the decoder's state. -/
def Obligations.DecoderTransitionsByOthers : Prop :=
  (∀ s t : State, s.Wf → s.decoderState = .pending → exec .frmTake s = .next t → t.decoderState = .idle) ∧
  (∀ s t : State, exec .reset s = .next t → t.decoderState = .idle) ∧
  (∀ (w : CmdWord) (s t : State), exec (decodeCmd w) s = .next t → t.decoderState = s.decoderState)

/-- R132: from any state with FRM none, a head, a non-empty payload of at most ACC_CAP bytes without a marker, and a
tail, with different markers, latch one record: the payload, not empty, not headless, not overflowed. -/
def Obligations.FramingIdempotence : Prop :=
  ∀ (s : State) (p : List Byte), s.frm = none → s.head ≠ s.tail → p ≠ [] → p.length ≤ Config.accCap →
    s.head ∉ p → s.tail ∉ p →
    ∃ t r, execAll ((s.head :: p ++ [s.tail]).map .rxByte) s = .next t ∧ t.frm = some r ∧
      r.payload = p ∧ r.len.toNat = p.length ∧ r.empty = false ∧ r.headless = false ∧ r.overflow = false ∧
      r.nonascii = nonasciiOf p ∧ t.frmOut = s.frmOut

/-- R128: a repeated head discards what was before it. -/
def Obligations.RepeatedHeadResets : Prop :=
  ∀ (s : State) (x y : List Byte), s.frm = none → s.head ≠ s.tail → y.length ≤ Config.accCap →
    s.head ∉ x → s.tail ∉ x → s.head ∉ y → s.tail ∉ y →
    ∃ t r, execAll ((s.head :: x ++ s.head :: y ++ [s.tail]).map .rxByte) s = .next t ∧
      t.frm = some r ∧ r.payload = y

/-- R130: with equal markers and no record in FRM, whatever instructions run, short of a SET_MARKERS or a reset, FRM
stays none, no record is delivered, and the rx port still takes every byte. -/
def Obligations.EqualMarkersLatchNothing : Prop :=
  ∀ (s t : State) (is : List Instr), s.head = s.tail → s.frm = none →
    (∀ i ∈ is, i ≠ .reset ∧ ∀ h l, i ≠ .setMarkers h l) → execAll is s = .next t →
    t.frm = none ∧ t.frmOut = s.frmOut ∧ ∀ b, enabled (.rxByte b) t = true

/-- R131: while the markers are not changed, no byte of the accumulator equals a marker, and so no byte of a payload
latched does. -/
def Obligations.PayloadHoldsNoMarker : Prop :=
  ∀ (s t : State) (i : Instr), (∀ h l, i ≠ .setMarkers h l) →
    (s.head ∉ s.acc ∧ s.tail ∉ s.acc) → exec i s = .next t →
    (t.head ∉ t.acc ∧ t.tail ∉ t.acc) ∧
    (∀ r, s.frm = none → t.frm = some r → s.head ∉ r.payload ∧ s.tail ∉ r.payload)

/-- R133: what the host routine returns for a record, and that it waits while FRM_VALID is 0. -/
def Obligations.HostNextPacket : Prop :=
  (∀ (d : Bool) (c : NonAsciiChoice) (s : State), s.frm = none → hostPoll d c s = none) ∧
  (∀ (d : Bool) (c : NonAsciiChoice) (s : State) (r : FrameRecord), s.frm = some r →
    hostPoll d c s = some (hostNextPacket d c r, .next { s with frm := none, frmOut := s.frmOut ++ [r] })) ∧
  (∀ (d : Bool) (c : NonAsciiChoice) (r : FrameRecord), r.empty = true → hostNextPacket d c r = .null) ∧
  (∀ (c : NonAsciiChoice) (r : FrameRecord), r.empty = false → hostNextPacket false c r = .bytes r.payload) ∧
  (∀ r : FrameRecord, r.empty = false → r.nonascii = true →
    hostNextPacket true .decodingError r = .decodingError ∧ hostNextPacket true .rawBytes r = .bytes r.payload) ∧
  (∀ (c : NonAsciiChoice) (r : FrameRecord), r.empty = false → r.nonascii = false →
    hostNextPacket true c r = .text (r.payload.map (fun b => Char.ofNat b.toNat)))

/-! ### The control family and reset -/

/-- R150: NOP changes nothing, and every word of opcode 0x00 is NOP, whatever its operand. -/
def Obligations.NopResult : Prop :=
  (∀ s : State, exec .nop s = .next s) ∧ (∀ w : CmdWord, opcOf w = 0x00#8 → decodeCmd w = .nop)

/-- R151: SET_MARKERS with its reserved bits 0 writes HEAD from OPD[7:0] and TAIL from OPD[15:8] and nothing else,
equal markers included; with a reserved bit set the word is BadCommand and the markers keep their values. -/
def Obligations.SetMarkersResult : Prop :=
  (∀ (h l : Byte) (s : State), exec (.setMarkers h l) s = .next { s with head := h, tail := l }) ∧
  (∀ w : CmdWord, opcOf w = 0x01#8 → (opdOf w).extractLsb' 16 16 = 0#16 →
    decodeCmd w = .setMarkers ((opdOf w).extractLsb' 0 8) ((opdOf w).extractLsb' 8 8)) ∧
  (∀ (w : CmdWord) (s : State), opcOf w = 0x01#8 → (opdOf w).extractLsb' 16 16 ≠ 0#16 →
    exec (decodeCmd w) s = .next { s with errBadCmd := true })

/-- R152: SET_POLICY writes POLICY from OPD[0] and nothing else; with a reserved bit set the word is BadCommand. -/
def Obligations.SetPolicyResult : Prop :=
  (∀ (p : Policy) (s : State), exec (.setPolicy p) s = .next { s with policy := p }) ∧
  (∀ w : CmdWord, opcOf w = 0x02#8 → (opdOf w).extractLsb' 1 31 = 0#31 →
    decodeCmd w = .setPolicy (if (opdOf w).getLsbD 0 then .reject else .wide)) ∧
  (∀ (w : CmdWord) (s : State), opcOf w = 0x02#8 → (opdOf w).extractLsb' 1 31 ≠ 0#31 →
    exec (decodeCmd w) s = .next { s with errBadCmd := true })

/-- R153: CLEAR_ERR clears ERR_BAD_CMD if OPD[0] is 1 and ERR_VALUE_RANGE if OPD[1] is 1, and nothing else; with a
reserved bit set nothing is cleared and ERR_BAD_CMD is set. -/
def Obligations.ClearErrResult : Prop :=
  (∀ (cv cb : Bool) (s : State), exec (.clearErr cv cb) s = .next { s with
    errBadCmd := if cb then false else s.errBadCmd, errValueRange := if cv then false else s.errValueRange }) ∧
  (∀ w : CmdWord, opcOf w = 0x03#8 → (opdOf w).extractLsb' 2 30 = 0#30 →
    decodeCmd w = .clearErr ((opdOf w).getLsbD 1) ((opdOf w).getLsbD 0)) ∧
  (∀ (w : CmdWord) (s : State), opcOf w = 0x03#8 → (opdOf w).extractLsb' 2 30 ≠ 0#30 →
    exec (decodeCmd w) s = .next { s with errBadCmd := true })

/-- R154: a word with an opcode outside the map, or with a reserved operand bit set, is BadCommand: it is always
enabled, sets ERR_BAD_CMD and changes nothing else; if the flag is 1 already, nothing changes at all. -/
def Obligations.BadCommandResult : Prop :=
  (∀ (w : CmdWord) (s : State), enabled (.illegal w) s = true ∧
    exec (.illegal w) s = .next { s with errBadCmd := true }) ∧
  (∀ w : CmdWord, illegalEncoding w → decodeCmd w = .illegal w) ∧
  (∀ (w : CmdWord) (s : State), s.errBadCmd = true → exec (.illegal w) s = .next s)

/-- R190: a reset event is always enabled and sets every element of the block to its reset value; the decoder is then
in IDLE and STATUS is 0x23400002. (That the offers and what was taken stay is R191, in the model's own fields,
logs 3 and 4.) -/
def Obligations.ResetResult : Prop :=
  ∀ s : State, enabled .reset s = true ∧ ∃ t, exec .reset s = .next t ∧
    t = { s with
      head := 0x40#8, tail := 0x23#8, policy := .wide, acc := [], accOvf := false, headSeen := false, frm := none,
      txq := [], errBadCmd := false, errValueRange := false } ∧
    t.decoderState = .idle ∧ t.status = 0x23400002#32

/-- R48: issuing a SET_MARKERS, SET_POLICY, CLEAR_ERR or NOP word twice in a row leaves the state that issuing it once
leaves; two TX_BYTE commands, with room, send two bytes. -/
def Obligations.ControlIdempotent : Prop :=
  (∀ (i : Instr) (s t : State),
    (i = .nop ∨ (∃ h l, i = .setMarkers h l) ∨ (∃ p, i = .setPolicy p) ∨ (∃ cv cb, i = .clearErr cv cb)) →
    exec i s = .next t → exec i t = .next t) ∧
  (∀ (d : Byte) (s : State), s.txq.length + 2 ≤ Config.txDepth →
    execAll [.txByte d, .txByte d] s = .next { s with txq := s.txq ++ [d, d] })

/-! ### STATUS and FSTAT -/

/-- R33: every bit of STATUS. -/
def Obligations.StatusLayout : Prop :=
  ∀ s : State,
    s.status.getLsbD 0 = s.frm.isSome ∧ s.status.getLsbD 1 = s.frm.isNone ∧
    s.status.getLsbD 2 = decide (0 < s.acc.length) ∧ s.status.getLsbD 3 = s.headSeen ∧
    s.status.getLsbD 4 = s.accOvf ∧ s.status.getLsbD 5 = s.errBadCmd ∧ s.status.getLsbD 6 = s.errValueRange ∧
    s.status.getLsbD 7 = decide (s.policy = .reject) ∧ s.status.extractLsb' 8 8 = 0#8 ∧
    s.status.extractLsb' 16 8 = s.head ∧ s.status.extractLsb' 24 8 = s.tail

/-- R34: STATUS after a reset event, from every state, and at power-on. -/
def Obligations.StatusAfterReset : Prop :=
  State.reset.status = 0x23400002#32 ∧
  ∀ s t : State, exec .reset s = .next t → t.status = 0x23400002#32

/-- R68: every bit of FSTAT. -/
def Obligations.FstatLayout : Prop :=
  ∀ r : FrameRecord,
    r.fstat.extractLsb' 0 16 = r.len ∧ r.fstat.getLsbD 16 = r.empty ∧ r.fstat.getLsbD 17 = r.nonascii ∧
    r.fstat.getLsbD 18 = r.headless ∧ r.fstat.getLsbD 19 = r.overflow ∧ r.fstat.extractLsb' 20 12 = 0#12

/-! ### Whole-machine rules -/

/-- R32 holds at reset. -/
def Obligations.InvariantAtReset : Prop := State.reset.Wf

/-- R32 is kept by every step of every state that meets it. -/
def Obligations.InvariantKept : Prop :=
  ∀ s t : State, s.Wf → step s = .next t → t.Wf

/-- R32.4 and R175: in a record that is well formed, EMPTY excludes NONASCII and OVERFLOW. -/
def Obligations.EmptyExcludes : Prop :=
  ∀ r : FrameRecord, r.Wf → r.empty = true → r.nonascii = false ∧ r.overflow = false

/-- R28, R29: the sticky flags are set only by an illegal word and by a refused TX_INT_TOKEN, and cleared only by
CLEAR_ERR with the flag's operand bit and by reset. -/
def Obligations.StickyFlagsWriters : Prop :=
  ∀ (i : Instr) (s t : State), exec i s = .next t →
    (s.errBadCmd = false → t.errBadCmd = true → ∃ w, i = .illegal w) ∧
    (s.errBadCmd = true → t.errBadCmd = false → i = .reset ∨ ∃ cv, i = .clearErr cv true) ∧
    (s.errValueRange = false → t.errValueRange = true →
      ∃ v, i = .txIntToken v ∧ s.policy = .reject ∧ 1000 ≤ (sint32 v).natAbs) ∧
    (s.errValueRange = true → t.errValueRange = false → i = .reset ∨ ∃ cb, i = .clearErr true cb)

/-- R20, R21, R22: only SET_MARKERS and reset write HEAD and TAIL, only SET_POLICY and reset write POLICY. -/
def Obligations.ConfigurationWriters : Prop :=
  ∀ (i : Instr) (s t : State), exec i s = .next t → i ≠ .reset →
    ((∀ h l, i ≠ .setMarkers h l) → t.head = s.head ∧ t.tail = s.tail) ∧
    ((∀ p, i ≠ .setPolicy p) → t.policy = s.policy)

/-- R136, R101, R155: a step of the decoder leaves the markers, the policy, TXQ and the sticky flags; a command leaves
ACC, ACC_OVF, HEAD_SEEN and FRM; frm.take leaves the whole block but FRM and tx.take the whole block but TXQ (R51); and
no instruction, reset included, changes what the agents offer, have taken or will do, but for the record frm.take
delivers and the byte tx.take delivers. (What the agents offer, have taken and will do is the model's, logs 1 to 4.) -/
def Obligations.FamiliesKeepApart : Prop :=
  (∀ (s t : State) (b : Byte), exec (.rxByte b) s = .next t → SameConfigAndEncoder s t ∧ SameAgents s t) ∧
  (∀ s t : State, exec .frmTake s = .next t →
    SameConfigAndEncoder s t ∧ t.acc = s.acc ∧ t.accOvf = s.accOvf ∧ t.headSeen = s.headSeen ∧
    t.cmdIn = s.cmdIn ∧ t.rxIn = s.rxIn ∧ t.txOut = s.txOut ∧ t.turns = s.turns) ∧
  (∀ (w : CmdWord) (s t : State), exec (decodeCmd w) s = .next t →
    t.acc = s.acc ∧ t.accOvf = s.accOvf ∧ t.headSeen = s.headSeen ∧ t.frm = s.frm ∧ SameAgents s t) ∧
  (∀ s t : State, exec .txTake s = .next t →
    SameDecoder s t ∧ t.policy = s.policy ∧ t.errBadCmd = s.errBadCmd ∧ t.errValueRange = s.errValueRange ∧
    t.cmdIn = s.cmdIn ∧ t.rxIn = s.rxIn ∧ t.frmOut = s.frmOut ∧ t.turns = s.turns) ∧
  (∀ s t : State, exec .reset s = .next t → SameAgents s t)

/-- R136: what a decoder step does depends on the decoder's elements alone: two states that agree on them, whatever
their policy, TXQ, flags and offers, agree on them after the same rx bytes. -/
def Obligations.DecoderIgnoresEncoder : Prop :=
  ∀ (bs : List Byte) (s1 s2 t1 t2 : State), SameDecoder s1 s2 →
    execAll (bs.map .rxByte) s1 = .next t1 → execAll (bs.map .rxByte) s2 = .next t2 → SameDecoder t1 t2

/-- R49, R90: in any interleaving without a reset event, the tx stream (the bytes taken, the bytes in TXQ and the
bytes the commands on offer will emit, with the policy each will find) never changes: where TXQ is, how fast it drains
and what the decoder does never change which bytes are sent, nor their order. (The offers, the record of what was taken
and the turns are the model's, logs 1, 3 and 4.) -/
def Obligations.TxStreamConserved : Prop :=
  ∀ (k : Nat) (s t : State), s.noResetTurn → Sys2Proof.core.run k s = .next t → t.txStream = s.txStream

/-- R134: in any interleaving without a reset event or a SET_MARKERS, while no frame's payload is longer than ACC_CAP,
the results of the records delivered, of the record held, and of the source's own decoder on the bytes still to come
are together what they were: each record FRAMEC delivers is what the source's next_packet returns, in order. (What the
source returns is the model's reading, log 16: it starts each call with an empty accumulator, which
spec/92_eei_decisions.md D10 marks as the spec's own reading; the turns, the offers and the record of what was taken
are the model's, logs 1, 3 and 4.) -/
def Obligations.FrameStreamConserved : Prop :=
  ∀ (d : Bool) (c : NonAsciiChoice) (k : Nat) (s t : State), s.noResetTurn → s.keepsMarkers →
    s.framesFit = true → Sys2Proof.core.run k s = .next t →
    t.frameStream d c = s.frameStream d c ∧ t.framesFit = true

/-- R134, R194: from reset with any markers, a stream no frame of which has a payload longer than ACC_CAP, and turns of
the rx source and the frame sink in any order, enough for the stream and its records, all of the stream is consumed and
the records delivered are what the source's successive next_packet calls return. (What the source returns is the
model's reading, log 16, and spec/92_eei_decisions.md D10 marks it as the spec's own; the turns, the offers and the
record of what was taken are the model's, logs 1, 2, 3 and 4.) -/
def Obligations.AgreesWithSource : Prop :=
  ∀ (d : Bool) (c : NonAsciiChoice) (h l : Byte) (stream : List Byte) (turns : List Turn) (k : Nat),
    sourceFits Config.accCap h l [] stream = true →
    (∀ x ∈ turns, x = .once .rxSource ∨ x = .once .frameSink) →
    stream.length ≤ turns.count (.once .rxSource) →
    (sourcePackets h l [] stream).length ≤ turns.count (.once .frameSink) →
    stream.length + (sourcePackets h l [] stream).length ≤ k →
    ∃ t, Sys2Proof.core.run k { State.reset with head := h, tail := l, rxIn := stream, turns := turns } = .next t ∧
      t.frmOut.map (hostNextPacket d c) = (sourcePackets h l [] stream).map (sourceResult d c) ∧
      t.rxIn = [] ∧ t.frm = none

/-- R99: the commands of enc_int_array, under WIDE with room for their bytes, append H, the tokens in order, and T,
and nothing else changes. -/
def Obligations.EncIntArrayResult : Prop :=
  ∀ (h t : List Byte) (vs : List Operand) (s : State), s.policy = .wide →
    s.txq.length + (h ++ vs.flatMap (fun v => tok (sint32 v)) ++ t).length ≤ Config.txDepth →
    execAll (((encIntArrayItems h vs t).filterMap Item.word?).map decodeCmd) s =
      .next { s with txq := s.txq ++ (h ++ vs.flatMap (fun v => tok (sint32 v)) ++ t) }

/-- R99, R204: under REJECT each refused value contributes no byte and sets ERR_VALUE_RANGE, and the other bytes are
still sent. -/
def Obligations.EncIntArrayUnderReject : Prop :=
  ∀ (h t : List Byte) (vs : List Operand) (s : State), s.policy = .reject →
    s.txq.length + (h ++ (vs.filter (fun v => !tooWide (sint32 v))).flatMap (fun v => tok (sint32 v)) ++ t).length
      ≤ Config.txDepth →
    execAll (((encIntArrayItems h vs t).filterMap Item.word?).map decodeCmd) s =
      .next { s with
        txq := s.txq ++
          (h ++ (vs.filter (fun v => !tooWide (sint32 v))).flatMap (fun v => tok (sint32 v)) ++ t)
        errValueRange := s.errValueRange || vs.any (fun v => tooWide (sint32 v)) }

/-- R100: the commands of enc_scalar_int, with room for their bytes, append H, the four bytes of the value, and T. -/
def Obligations.EncScalarIntResult : Prop :=
  ∀ (h t : List Byte) (v : Int) (s : State),
    s.txq.length + (h ++ be32 (u32 v) ++ t).length ≤ Config.txDepth →
    execAll (((encScalarIntItems h (u32 v) t).filterMap Item.word?).map decodeCmd) s =
      .next { s with txq := s.txq ++ (h ++ be32 (u32 v) ++ t) }

/-! ### The assembler -/

/-- R72: each command statement, in each form of its number, assembles with its operands in range to one word, which
decodes to the command written, and is refused with an operand out of range; nop, set_policy and clear_err all are the
words R72 gives; a BadCommand word comes only from `.word`. -/
def Obligations.AssembledWordsDecode : Prop :=
  (∀ (st : Stmt) (items : List Item) (w : CmdWord), assemble st = .ok items → .cmd w ∈ items →
    decodeCmd w = .illegal w → ∃ n, st = .word n) ∧
  (assemble .nop = .ok [.cmd 0x0000000000#40] ∧ decodeCmd 0x0000000000#40 = .nop ∧
    assemble (.setPolicy .wide) = .ok [.cmd 0x0200000000#40] ∧ decodeCmd 0x0200000000#40 = .setPolicy .wide ∧
    assemble (.setPolicy .reject) = .ok [.cmd 0x0200000001#40] ∧ decodeCmd 0x0200000001#40 = .setPolicy .reject ∧
    assemble .clearErrAll = .ok [.cmd 0x0300000003#40] ∧ decodeCmd 0x0300000003#40 = .clearErr true true) ∧
  (∀ n : Machine.Num, 0 ≤ n.value → n.value ≤ 255 → ∃ w, assemble (.txByte n) = .ok [.cmd w] ∧
    decodeCmd w = .txByte (BitVec.ofInt 8 n.value)) ∧
  (∀ h l : Machine.Num, 0 ≤ h.value → h.value ≤ 255 → 0 ≤ l.value → l.value ≤ 255 →
    ∃ w, assemble (.setMarkers h l) = .ok [.cmd w] ∧
      decodeCmd w = .setMarkers (BitVec.ofInt 8 h.value) (BitVec.ofInt 8 l.value)) ∧
  (∀ n : Machine.Num, 0 ≤ n.value → n.value ≤ 3 → ∃ w, assemble (.clearErr n) = .ok [.cmd w] ∧
    decodeCmd w = .clearErr (decide (2 ≤ n.value)) (decide (n.value % 2 = 1))) ∧
  (∀ v : Int, -(2 ^ 31) ≤ v → v ≤ 2 ^ 31 - 1 →
    (∃ w, assemble (.txIntToken (.dec v)) = .ok [.cmd w] ∧ decodeCmd w = .txIntToken (u32 v)) ∧
    (∃ w, assemble (.txInt32 (.dec v)) = .ok [.cmd w] ∧ decodeCmd w = .txInt32 (u32 v))) ∧
  (∀ x : Nat, x ≤ 0xFFFFFFFF →
    (∃ w, assemble (.txIntToken (.hex x)) = .ok [.cmd w] ∧ decodeCmd w = .txIntToken (BitVec.ofNat 32 x)) ∧
    (∃ w, assemble (.txInt32 (.hex x)) = .ok [.cmd w] ∧ decodeCmd w = .txInt32 (BitVec.ofNat 32 x))) ∧
  (∀ n : Machine.Num, 0 ≤ n.value → n.value ≤ 2 ^ 40 - 1 →
    assemble (.word n) = .ok [.cmd (BitVec.ofInt 40 n.value)]) ∧
  (∀ n m : Machine.Num, (n.value < 0 ∨ 255 < n.value) → (∃ e, assemble (.txByte n) = .error e) ∧
    (∃ e, assemble (.setMarkers n m) = .error e) ∧ (∃ e, assemble (.setMarkers m n) = .error e)) ∧
  (∀ n : Machine.Num, (n.value < 0 ∨ 3 < n.value) → ∃ e, assemble (.clearErr n) = .error e) ∧
  (∀ v : Int, (v < -(2 ^ 31) ∨ 2 ^ 31 - 1 < v) →
    (∃ e, assemble (.txIntToken (.dec v)) = .error e) ∧ (∃ e, assemble (.txInt32 (.dec v)) = .error e)) ∧
  (∀ x : Nat, 0xFFFFFFFF < x →
    (∃ e, assemble (.txIntToken (.hex x)) = .error e) ∧ (∃ e, assemble (.txInt32 (.hex x)) = .error e)) ∧
  (∀ n : Machine.Num, (n.value < 0 ∨ 2 ^ 40 - 1 < n.value) → ∃ e, assemble (.word n) = .error e)

/-- R77: a tx_ascii or enc_text statement with a character above 127 anywhere is refused as a whole and emits no word;
else it assembles to one tx_byte per character in order, for enc_text the head first, then the text, then the
tail. -/
def Obligations.TextRefusedWhole : Prop :=
  (∀ s h t : List Char, (∃ c ∈ h ++ s ++ t, 127 < c.toNat) →
    ∃ e, assemble (.encText s h t) = .error e) ∧
  (∀ s : List Char, (∃ c ∈ s, 127 < c.toNat) → ∃ e, assemble (.txAscii s) = .error e) ∧
  (∀ s : List Char, (∀ c ∈ s, c.toNat ≤ 127) →
    assemble (.txAscii s) = .ok (s.map (fun c => .cmd (cmdWord 0x10#8 (0#24 ++ BitVec.ofNat 8 c.toNat))))) ∧
  (∀ s h t : List Char, (∀ c ∈ h ++ s ++ t, c.toNat ≤ 127) →
    assemble (.encText s h t) =
      .ok ((h ++ s ++ t).map (fun c => .cmd (cmdWord 0x10#8 (0#24 ++ BitVec.ofNat 8 c.toNat)))))

/-! ### One call of the source -/

/-- R134, one call: from the state between two frames, the rx bytes up to and including the tail byte that ends the
source's call latch the record of that call: its payload is the source's, or, where that is longer than ACC_CAP, its
first ACC_CAP bytes with OVERFLOW = 1; within ACC_CAP the host routine returns what the source returns, and both have
consumed the same bytes. Where the source's call blocks, no record is latched (R135). (What the source returns is the
model's reading, log 16, which spec/92_eei_decisions.md D10 marks as the spec's own.) -/
def Obligations.NextPacketAgrees : Prop :=
  (∀ (d : Bool) (c : NonAsciiChoice) (s : State) (stream p rest : List Byte),
    s.frm = none → s.acc = [] → s.accOvf = false → sourceCall s.head s.tail [] stream = some (p, rest) →
    ∃ taken t r, stream = taken ++ rest ∧ taken.getLast? = some s.tail ∧
      execAll (taken.map .rxByte) s = .next t ∧ t.frm = some r ∧ t.acc = [] ∧ t.accOvf = false ∧
      r.payload = p.take Config.accCap ∧ r.overflow = decide (Config.accCap < p.length) ∧
      (p.length ≤ Config.accCap → hostNextPacket d c r = sourceResult d c p)) ∧
  (∀ (s t : State) (stream : List Byte), s.frm = none → sourceCall s.head s.tail [] stream = none →
    execAll (stream.map .rxByte) s = .next t → t.frm = none)
end

