-- ==== Sys2Proof/Laws/Decode.lean ====
section
/-! SUPPORT. The fields of a command word: OPC and OPD of a word put together from them (R61), and the reading of a
one-bit field. -/

namespace Sys2Proof

@[simp] theorem opcOf_cmdWord (c : BitVec 8) (d : Operand) : opcOf (cmdWord c d) = c := by
  simp only [opcOf, cmdWord]
  exact BitVec.extractLsb'_append_eq_left

@[simp] theorem opdOf_cmdWord (c : BitVec 8) (d : Operand) : opdOf (cmdWord c d) = d := by
  simp only [opdOf, cmdWord]
  exact BitVec.extractLsb'_append_eq_right

/-- A word is its OPC and its OPD (R61). -/
theorem cmdWord_opcOf_opdOf (w : CmdWord) : cmdWord (opcOf w) (opdOf w) = w := by
  simp only [opcOf, opdOf, cmdWord]
  ext i hi
  simp only [BitVec.getElem_append, BitVec.getElem_extractLsb']
  split
  · rw [Nat.zero_add]; exact BitVec.getLsbD_eq_getElem hi
  · rw [show 32 + (i - 32) = i by omega]; exact BitVec.getLsbD_eq_getElem hi

/-- Two bit vectors are equal when their bits are. -/
theorem eq_iff_getLsbD {n : Nat} (a b : BitVec n) :
    a = b ↔ ∀ i : Nat, i < n → a.getLsbD i = b.getLsbD i :=
  ⟨by rintro rfl _ _; rfl, fun h => BitVec.eq_of_getLsbD_eq (fun i hi => h i hi)⟩

/-! ### The fields of an operand put together from them (R62) -/

@[simp] theorem markers_reserved (t h : Byte) : (0#16 ++ t ++ h : Operand).extractLsb' 16 16 = 0#16 := by
  simp only [eq_iff_getLsbD, BitVec.getLsbD_extractLsb', BitVec.getLsbD_append, Nat.forall_lt_succ_right,
    Nat.not_lt_zero, false_imp_iff, implies_true, true_and]
  simp

@[simp] theorem markers_head (t h : Byte) : (0#16 ++ t ++ h : Operand).extractLsb' 0 8 = h := by
  simp only [eq_iff_getLsbD, BitVec.getLsbD_extractLsb', BitVec.getLsbD_append, Nat.forall_lt_succ_right,
    Nat.not_lt_zero, false_imp_iff, implies_true, true_and]
  simp

@[simp] theorem markers_tail (t h : Byte) : (0#16 ++ t ++ h : Operand).extractLsb' 8 8 = t := by
  simp only [eq_iff_getLsbD, BitVec.getLsbD_extractLsb', BitVec.getLsbD_append, Nat.forall_lt_succ_right,
    Nat.not_lt_zero, false_imp_iff, implies_true, true_and]
  simp

@[simp] theorem byte_reserved (d : Byte) : (0#24 ++ d : Operand).extractLsb' 8 24 = 0#24 :=
  BitVec.extractLsb'_append_eq_left

@[simp] theorem byte_field (d : Byte) : (0#24 ++ d : Operand).extractLsb' 0 8 = d :=
  BitVec.extractLsb'_append_eq_right

/-! ### The rows of the opcode map in terms of OPC and the reserved bits (R62, R64) -/

/-- A row that checks the opcode alone: NOP, TX_INT_TOKEN, TX_INT32. -/
theorem covers_opcode (c : BitVec 8) (w : CmdWord) :
    CmdRow.covers ⟨0xFF00000000#40, cmdWord c 0#32⟩ w = true ↔ opcOf w = c := by
  simp only [CmdRow.covers, beq_iff_eq, eq_iff_getLsbD, opcOf, cmdWord, Nat.forall_lt_succ_right,
    Nat.not_lt_zero, false_imp_iff, implies_true, true_and, BitVec.getLsbD_and, BitVec.getLsbD_extractLsb',
    BitVec.getLsbD_append]
  simp

/-- SET_MARKERS. -/
theorem covers_setMarkers (w : CmdWord) : CmdRow.covers ⟨0xFFFFFF0000#40, 0x0100000000#40⟩ w = true ↔
    opcOf w = 0x01#8 ∧ (opdOf w).extractLsb' 16 16 = 0#16 := by
  simp only [CmdRow.covers, beq_iff_eq, eq_iff_getLsbD, opcOf, opdOf, Nat.forall_lt_succ_right,
    Nat.not_lt_zero, false_imp_iff, implies_true, true_and, BitVec.getLsbD_and, BitVec.getLsbD_extractLsb']
  simp
  tauto

/-- SET_POLICY. -/
theorem covers_setPolicy (w : CmdWord) : CmdRow.covers ⟨0xFFFFFFFFFE#40, 0x0200000000#40⟩ w = true ↔
    opcOf w = 0x02#8 ∧ (opdOf w).extractLsb' 1 31 = 0#31 := by
  simp only [CmdRow.covers, beq_iff_eq, eq_iff_getLsbD, opcOf, opdOf, Nat.forall_lt_succ_right,
    Nat.not_lt_zero, false_imp_iff, implies_true, true_and, BitVec.getLsbD_and, BitVec.getLsbD_extractLsb']
  simp
  tauto

/-- CLEAR_ERR. -/
theorem covers_clearErr (w : CmdWord) : CmdRow.covers ⟨0xFFFFFFFFFC#40, 0x0300000000#40⟩ w = true ↔
    opcOf w = 0x03#8 ∧ (opdOf w).extractLsb' 2 30 = 0#30 := by
  simp only [CmdRow.covers, beq_iff_eq, eq_iff_getLsbD, opcOf, opdOf, Nat.forall_lt_succ_right,
    Nat.not_lt_zero, false_imp_iff, implies_true, true_and, BitVec.getLsbD_and, BitVec.getLsbD_extractLsb']
  simp
  tauto

/-- TX_BYTE. -/
theorem covers_txByte (w : CmdWord) : CmdRow.covers ⟨0xFFFFFFFF00#40, 0x1000000000#40⟩ w = true ↔
    opcOf w = 0x10#8 ∧ (opdOf w).extractLsb' 8 24 = 0#24 := by
  simp only [CmdRow.covers, beq_iff_eq, eq_iff_getLsbD, opcOf, opdOf, Nat.forall_lt_succ_right,
    Nat.not_lt_zero, false_imp_iff, implies_true, true_and, BitVec.getLsbD_and, BitVec.getLsbD_extractLsb']
  simp
  tauto

/-- A word is of some row exactly when its opcode is in the map and its reserved bits are 0 (R65, the other way
round). -/
theorem definedWord_iff (w : CmdWord) : definedWord w = true ↔
    opcOf w = 0x00#8 ∨ (opcOf w = 0x01#8 ∧ (opdOf w).extractLsb' 16 16 = 0#16) ∨
    (opcOf w = 0x02#8 ∧ (opdOf w).extractLsb' 1 31 = 0#31) ∨
    (opcOf w = 0x03#8 ∧ (opdOf w).extractLsb' 2 30 = 0#30) ∨
    (opcOf w = 0x10#8 ∧ (opdOf w).extractLsb' 8 24 = 0#24) ∨ opcOf w = 0x11#8 ∨ opcOf w = 0x12#8 := by
  rw [← covers_setMarkers, ← covers_setPolicy, ← covers_clearErr, ← covers_txByte, ← covers_opcode 0x00#8,
    ← covers_opcode 0x11#8, ← covers_opcode 0x12#8]
  simp [definedWord, cmdRows, cmdWord]

@[simp] theorem policyOfBit_bit (p : Policy) : policyOfBit p.bit = p := by cases p <;> rfl

@[simp] theorem bit_policyOfBit (b : Bool) : (policyOfBit b).bit = b := by cases b <;> rfl

end Sys2Proof
end

