-- ==== Sys2Proof/Laws/Operands.lean ====
section
/-! SUPPORT. The arithmetic of the encoders: two's complement, decimal digits, tokens and big-endian bytes. -/

namespace Sys2Proof.Machine

/-! ### Two's complement (R9) -/

/-- R9's formula is the standard reading of the bits. -/
theorem sint32_eq_toInt (x : Operand) : sint32 x = x.toInt := by
  unfold sint32
  rw [BitVec.toInt_eq_toNat_cond]
  have := x.isLt
  split <;> split <;> omega

/-- `sint32` answers an i32. -/
theorem sint32_range (x : Operand) : -(2 ^ 31) ≤ sint32 x ∧ sint32 x < 2 ^ 31 := by
  unfold sint32
  have := x.isLt
  split <;> omega

theorem u32_toNat (v : Int) : ((u32 v).toNat : Int) = v % 2 ^ 32 := by
  have h0 : 0 ≤ v % 2 ^ 32 := Int.emod_nonneg _ (by decide)
  have h1 : v % 2 ^ 32 < 2 ^ 32 := Int.emod_lt_of_pos _ (by decide)
  rw [u32, BitVec.toNat_ofNat]
  omega

/-! ### Decimal digits (R12) -/

/-- The number of steps allowed does not matter once there are enough. -/
theorem decDigits_enough (f g m : Nat) (hf : m ≤ f) (hg : m ≤ g) : decDigits f m = decDigits g m := by
  induction f generalizing g m with
  | zero =>
    obtain rfl : m = 0 := by omega
    cases g <;> simp [decDigits]
  | succ f ih =>
    cases g with
    | zero =>
      obtain rfl : m = 0 := by omega
      simp [decDigits]
    | succ g =>
      simp only [decDigits]
      split
      · rfl
      · rw [ih g (m / 10) (by omega) (by omega)]

/-- A number below ten is its own digit. -/
theorem dec_of_lt (m : Nat) (h : m < 10) : dec m = [m] := by
  unfold dec
  cases m with
  | zero => rfl
  | succ m => simp [decDigits, h]

/-- The last digit is the remainder by ten, the digits before it those of the quotient. -/
theorem dec_of_ge (m : Nat) (h : 10 ≤ m) : dec m = dec (m / 10) ++ [m % 10] := by
  unfold dec
  obtain ⟨k, rfl⟩ : ∃ k, m = k + 1 := ⟨m - 1, by omega⟩
  rw [show decDigits (k + 1) (k + 1) = decDigits k ((k + 1) / 10) ++ [(k + 1) % 10] by
    simp only [decDigits]; rw [if_neg (by omega)]]
  rw [decDigits_enough k ((k + 1) / 10) ((k + 1) / 10) (by omega) (by omega)]

/-- Induction along the decimal digits. -/
theorem dec_induction {P : Nat → Prop} (small : ∀ m, m < 10 → P m)
    (large : ∀ m, 10 ≤ m → P (m / 10) → P m) (m : Nat) : P m := by
  induction m using Nat.strongRecOn with
  | ind m ih =>
    by_cases h : m < 10
    · exact small m h
    · exact large m (by omega) (ih (m / 10) (by omega))

/-- Every digit is below ten. -/
theorem dec_digit_lt (m : Nat) : ∀ d ∈ dec m, d < 10 := by
  induction m using dec_induction with
  | small m h => simp [dec_of_lt m h, h]
  | large m h ih =>
    rw [dec_of_ge m h]
    intro d hd
    rcases List.mem_append.mp hd with hd | hd
    · exact ih d hd
    · simp only [List.mem_singleton] at hd; omega

theorem dec_ne_nil (m : Nat) : dec m ≠ [] := by
  by_cases h : m < 10
  · simp [dec_of_lt m h]
  · simp [dec_of_ge m (by omega)]

/-- At most `n + 1` digits below `10 ^ (n + 1)`. -/
theorem dec_length_le (n m : Nat) (h : m < 10 ^ (n + 1)) : (dec m).length ≤ n + 1 := by
  induction n generalizing m with
  | zero => rw [dec_of_lt m (by simpa using h)]; simp
  | succ n ih =>
    by_cases hm : m < 10
    · rw [dec_of_lt m hm]; simp
    · rw [dec_of_ge m (by omega), List.length_append]
      have := ih (m / 10) (by rw [Nat.div_lt_iff_lt_mul (by omega)]; rw [pow_succ] at h; exact h)
      simpa using this

/-! ### Tokens (R93) -/

theorem pad3_length (ds : List Nat) : (pad3 ds).length = max 3 ds.length := by
  simp [pad3]; omega

/-- The length of a token: one sign and at least three digits. -/
theorem tok_length (v : Int) : (tok v).length = 1 + max 3 (dec (absNat v)).length := by
  simp [tok, pad3_length]; omega

theorem pad3_digit_lt (ds : List Nat) (h : ∀ d ∈ ds, d < 10) : ∀ d ∈ pad3 ds, d < 10 := by
  intro d hd
  simp only [pad3, List.mem_append, List.mem_replicate] at hd
  rcases hd with ⟨_, rfl⟩ | hd
  · omega
  · exact h d hd

/-- A digit's character and back. -/
theorem asciiDigit_toNat (d : Nat) (h : d < 10) : (asciiDigit d).toNat = 0x30 + d := by
  rw [asciiDigit, BitVec.toNat_ofNat]; omega

@[simp] theorem be32_length (x : Operand) : (be32 x).length = 4 := rfl

/-- The four bytes of a word put together from four bytes, most significant first (R43). -/
theorem be32_append (b0 b1 b2 b3 : Byte) : be32 (b0 ++ b1 ++ b2 ++ b3 : Operand) = [b0, b1, b2, b3] := by
  simp only [be32, List.cons.injEq, and_true]
  refine ⟨?_, ?_, ?_, ?_⟩ <;>
    simp only [eq_iff_getLsbD, BitVec.getLsbD_extractLsb', BitVec.getLsbD_append, Nat.forall_lt_succ_right,
      Nat.not_lt_zero, false_imp_iff, implies_true, true_and] <;> simp

/-- The four bytes read back as a number are the word (95_test_vectors.md 1.2). -/
theorem be32_value (x : Operand) :
    (x.extractLsb' 24 8).toNat * 2 ^ 24 + (x.extractLsb' 16 8).toNat * 2 ^ 16 + (x.extractLsb' 8 8).toNat * 2 ^ 8
      + (x.extractLsb' 0 8).toNat = x.toNat := by
  have := x.isLt
  simp only [BitVec.extractLsb'_toNat, Nat.shiftRight_eq_div_pow]
  omega

end Sys2Proof.Machine
end

