-- ==== Sys2Proof/Laws/State.lean ====
section
/-! SUPPORT. What each named update of the state leaves in each field, true by rfl, so that no later proof unfolds a
record update. Where an update writes few fields, the fields it leaves are one lemma each. -/

namespace Sys2Proof.Machine

section
variable (s : State)

/-! `emitTx` -/

@[simp] theorem emitTx_head (l : List Byte) : (emitTx l s).head = s.head := rfl
@[simp] theorem emitTx_tail (l : List Byte) : (emitTx l s).tail = s.tail := rfl
@[simp] theorem emitTx_policy (l : List Byte) : (emitTx l s).policy = s.policy := rfl
@[simp] theorem emitTx_acc (l : List Byte) : (emitTx l s).acc = s.acc := rfl
@[simp] theorem emitTx_accOvf (l : List Byte) : (emitTx l s).accOvf = s.accOvf := rfl
@[simp] theorem emitTx_headSeen (l : List Byte) : (emitTx l s).headSeen = s.headSeen := rfl
@[simp] theorem emitTx_frm (l : List Byte) : (emitTx l s).frm = s.frm := rfl
@[simp] theorem emitTx_txq (l : List Byte) : (emitTx l s).txq = s.txq ++ l := rfl
@[simp] theorem emitTx_errBadCmd (l : List Byte) : (emitTx l s).errBadCmd = s.errBadCmd := rfl
@[simp] theorem emitTx_errValueRange (l : List Byte) : (emitTx l s).errValueRange = s.errValueRange := rfl
@[simp] theorem emitTx_cmdIn (l : List Byte) : (emitTx l s).cmdIn = s.cmdIn := rfl
@[simp] theorem emitTx_rxIn (l : List Byte) : (emitTx l s).rxIn = s.rxIn := rfl
@[simp] theorem emitTx_txOut (l : List Byte) : (emitTx l s).txOut = s.txOut := rfl
@[simp] theorem emitTx_frmOut (l : List Byte) : (emitTx l s).frmOut = s.frmOut := rfl
@[simp] theorem emitTx_turns (l : List Byte) : (emitTx l s).turns = s.turns := rfl

/-! `latchFrm` -/

@[simp] theorem latchFrm_head (r : FrameRecord) : (latchFrm r s).head = s.head := rfl
@[simp] theorem latchFrm_tail (r : FrameRecord) : (latchFrm r s).tail = s.tail := rfl
@[simp] theorem latchFrm_policy (r : FrameRecord) : (latchFrm r s).policy = s.policy := rfl
@[simp] theorem latchFrm_acc (r : FrameRecord) : (latchFrm r s).acc = s.acc := rfl
@[simp] theorem latchFrm_accOvf (r : FrameRecord) : (latchFrm r s).accOvf = s.accOvf := rfl
@[simp] theorem latchFrm_headSeen (r : FrameRecord) : (latchFrm r s).headSeen = s.headSeen := rfl
@[simp] theorem latchFrm_frm (r : FrameRecord) : (latchFrm r s).frm = some r := rfl
@[simp] theorem latchFrm_txq (r : FrameRecord) : (latchFrm r s).txq = s.txq := rfl
@[simp] theorem latchFrm_errBadCmd (r : FrameRecord) : (latchFrm r s).errBadCmd = s.errBadCmd := rfl
@[simp] theorem latchFrm_errValueRange (r : FrameRecord) : (latchFrm r s).errValueRange = s.errValueRange := rfl
@[simp] theorem latchFrm_cmdIn (r : FrameRecord) : (latchFrm r s).cmdIn = s.cmdIn := rfl
@[simp] theorem latchFrm_rxIn (r : FrameRecord) : (latchFrm r s).rxIn = s.rxIn := rfl
@[simp] theorem latchFrm_txOut (r : FrameRecord) : (latchFrm r s).txOut = s.txOut := rfl
@[simp] theorem latchFrm_frmOut (r : FrameRecord) : (latchFrm r s).frmOut = s.frmOut := rfl
@[simp] theorem latchFrm_turns (r : FrameRecord) : (latchFrm r s).turns = s.turns := rfl

/-! `raiseBadCommand` -/

@[simp] theorem raiseBadCommand_head : (raiseBadCommand s).head = s.head := rfl
@[simp] theorem raiseBadCommand_tail : (raiseBadCommand s).tail = s.tail := rfl
@[simp] theorem raiseBadCommand_policy : (raiseBadCommand s).policy = s.policy := rfl
@[simp] theorem raiseBadCommand_acc : (raiseBadCommand s).acc = s.acc := rfl
@[simp] theorem raiseBadCommand_accOvf : (raiseBadCommand s).accOvf = s.accOvf := rfl
@[simp] theorem raiseBadCommand_headSeen : (raiseBadCommand s).headSeen = s.headSeen := rfl
@[simp] theorem raiseBadCommand_frm : (raiseBadCommand s).frm = s.frm := rfl
@[simp] theorem raiseBadCommand_txq : (raiseBadCommand s).txq = s.txq := rfl
@[simp] theorem raiseBadCommand_errBadCmd : (raiseBadCommand s).errBadCmd = true := rfl
@[simp] theorem raiseBadCommand_errValueRange : (raiseBadCommand s).errValueRange = s.errValueRange := rfl
@[simp] theorem raiseBadCommand_cmdIn : (raiseBadCommand s).cmdIn = s.cmdIn := rfl
@[simp] theorem raiseBadCommand_rxIn : (raiseBadCommand s).rxIn = s.rxIn := rfl
@[simp] theorem raiseBadCommand_txOut : (raiseBadCommand s).txOut = s.txOut := rfl
@[simp] theorem raiseBadCommand_frmOut : (raiseBadCommand s).frmOut = s.frmOut := rfl
@[simp] theorem raiseBadCommand_turns : (raiseBadCommand s).turns = s.turns := rfl

/-! `raiseValueOutOfRange` -/

@[simp] theorem raiseValueOutOfRange_head : (raiseValueOutOfRange s).head = s.head := rfl
@[simp] theorem raiseValueOutOfRange_tail : (raiseValueOutOfRange s).tail = s.tail := rfl
@[simp] theorem raiseValueOutOfRange_policy : (raiseValueOutOfRange s).policy = s.policy := rfl
@[simp] theorem raiseValueOutOfRange_acc : (raiseValueOutOfRange s).acc = s.acc := rfl
@[simp] theorem raiseValueOutOfRange_accOvf : (raiseValueOutOfRange s).accOvf = s.accOvf := rfl
@[simp] theorem raiseValueOutOfRange_headSeen : (raiseValueOutOfRange s).headSeen = s.headSeen := rfl
@[simp] theorem raiseValueOutOfRange_frm : (raiseValueOutOfRange s).frm = s.frm := rfl
@[simp] theorem raiseValueOutOfRange_txq : (raiseValueOutOfRange s).txq = s.txq := rfl
@[simp] theorem raiseValueOutOfRange_errBadCmd : (raiseValueOutOfRange s).errBadCmd = s.errBadCmd := rfl
@[simp] theorem raiseValueOutOfRange_errValueRange : (raiseValueOutOfRange s).errValueRange = true := rfl
@[simp] theorem raiseValueOutOfRange_cmdIn : (raiseValueOutOfRange s).cmdIn = s.cmdIn := rfl
@[simp] theorem raiseValueOutOfRange_rxIn : (raiseValueOutOfRange s).rxIn = s.rxIn := rfl
@[simp] theorem raiseValueOutOfRange_txOut : (raiseValueOutOfRange s).txOut = s.txOut := rfl
@[simp] theorem raiseValueOutOfRange_frmOut : (raiseValueOutOfRange s).frmOut = s.frmOut := rfl
@[simp] theorem raiseValueOutOfRange_turns : (raiseValueOutOfRange s).turns = s.turns := rfl

/-! `setMarkerRegs` -/

@[simp] theorem setMarkerRegs_head (h t : Byte) : (setMarkerRegs h t s).head = h := rfl
@[simp] theorem setMarkerRegs_tail (h t : Byte) : (setMarkerRegs h t s).tail = t := rfl
@[simp] theorem setMarkerRegs_policy (h t : Byte) : (setMarkerRegs h t s).policy = s.policy := rfl
@[simp] theorem setMarkerRegs_acc (h t : Byte) : (setMarkerRegs h t s).acc = s.acc := rfl
@[simp] theorem setMarkerRegs_accOvf (h t : Byte) : (setMarkerRegs h t s).accOvf = s.accOvf := rfl
@[simp] theorem setMarkerRegs_headSeen (h t : Byte) : (setMarkerRegs h t s).headSeen = s.headSeen := rfl
@[simp] theorem setMarkerRegs_frm (h t : Byte) : (setMarkerRegs h t s).frm = s.frm := rfl
@[simp] theorem setMarkerRegs_txq (h t : Byte) : (setMarkerRegs h t s).txq = s.txq := rfl
@[simp] theorem setMarkerRegs_errBadCmd (h t : Byte) : (setMarkerRegs h t s).errBadCmd = s.errBadCmd := rfl
@[simp] theorem setMarkerRegs_errValueRange (h t : Byte) : (setMarkerRegs h t s).errValueRange = s.errValueRange := rfl
@[simp] theorem setMarkerRegs_cmdIn (h t : Byte) : (setMarkerRegs h t s).cmdIn = s.cmdIn := rfl
@[simp] theorem setMarkerRegs_rxIn (h t : Byte) : (setMarkerRegs h t s).rxIn = s.rxIn := rfl
@[simp] theorem setMarkerRegs_txOut (h t : Byte) : (setMarkerRegs h t s).txOut = s.txOut := rfl
@[simp] theorem setMarkerRegs_frmOut (h t : Byte) : (setMarkerRegs h t s).frmOut = s.frmOut := rfl
@[simp] theorem setMarkerRegs_turns (h t : Byte) : (setMarkerRegs h t s).turns = s.turns := rfl

/-! `setPolicyReg` -/

@[simp] theorem setPolicyReg_head (p : Policy) : (setPolicyReg p s).head = s.head := rfl
@[simp] theorem setPolicyReg_tail (p : Policy) : (setPolicyReg p s).tail = s.tail := rfl
@[simp] theorem setPolicyReg_policy (p : Policy) : (setPolicyReg p s).policy = p := rfl
@[simp] theorem setPolicyReg_acc (p : Policy) : (setPolicyReg p s).acc = s.acc := rfl
@[simp] theorem setPolicyReg_accOvf (p : Policy) : (setPolicyReg p s).accOvf = s.accOvf := rfl
@[simp] theorem setPolicyReg_headSeen (p : Policy) : (setPolicyReg p s).headSeen = s.headSeen := rfl
@[simp] theorem setPolicyReg_frm (p : Policy) : (setPolicyReg p s).frm = s.frm := rfl
@[simp] theorem setPolicyReg_txq (p : Policy) : (setPolicyReg p s).txq = s.txq := rfl
@[simp] theorem setPolicyReg_errBadCmd (p : Policy) : (setPolicyReg p s).errBadCmd = s.errBadCmd := rfl
@[simp] theorem setPolicyReg_errValueRange (p : Policy) : (setPolicyReg p s).errValueRange = s.errValueRange := rfl
@[simp] theorem setPolicyReg_cmdIn (p : Policy) : (setPolicyReg p s).cmdIn = s.cmdIn := rfl
@[simp] theorem setPolicyReg_rxIn (p : Policy) : (setPolicyReg p s).rxIn = s.rxIn := rfl
@[simp] theorem setPolicyReg_txOut (p : Policy) : (setPolicyReg p s).txOut = s.txOut := rfl
@[simp] theorem setPolicyReg_frmOut (p : Policy) : (setPolicyReg p s).frmOut = s.frmOut := rfl
@[simp] theorem setPolicyReg_turns (p : Policy) : (setPolicyReg p s).turns = s.turns := rfl

/-! `clearErrFlags` -/

@[simp] theorem clearErrFlags_head (cv cb : Bool) : (clearErrFlags cv cb s).head = s.head := rfl
@[simp] theorem clearErrFlags_tail (cv cb : Bool) : (clearErrFlags cv cb s).tail = s.tail := rfl
@[simp] theorem clearErrFlags_policy (cv cb : Bool) : (clearErrFlags cv cb s).policy = s.policy := rfl
@[simp] theorem clearErrFlags_acc (cv cb : Bool) : (clearErrFlags cv cb s).acc = s.acc := rfl
@[simp] theorem clearErrFlags_accOvf (cv cb : Bool) : (clearErrFlags cv cb s).accOvf = s.accOvf := rfl
@[simp] theorem clearErrFlags_headSeen (cv cb : Bool) : (clearErrFlags cv cb s).headSeen = s.headSeen := rfl
@[simp] theorem clearErrFlags_frm (cv cb : Bool) : (clearErrFlags cv cb s).frm = s.frm := rfl
@[simp] theorem clearErrFlags_txq (cv cb : Bool) : (clearErrFlags cv cb s).txq = s.txq := rfl
@[simp] theorem clearErrFlags_errBadCmd (cv cb : Bool) : (clearErrFlags cv cb s).errBadCmd = (s.errBadCmd && !cb) := rfl
@[simp] theorem clearErrFlags_errValueRange (cv cb : Bool) :
    (clearErrFlags cv cb s).errValueRange = (s.errValueRange && !cv) := rfl
@[simp] theorem clearErrFlags_cmdIn (cv cb : Bool) : (clearErrFlags cv cb s).cmdIn = s.cmdIn := rfl
@[simp] theorem clearErrFlags_rxIn (cv cb : Bool) : (clearErrFlags cv cb s).rxIn = s.rxIn := rfl
@[simp] theorem clearErrFlags_txOut (cv cb : Bool) : (clearErrFlags cv cb s).txOut = s.txOut := rfl
@[simp] theorem clearErrFlags_frmOut (cv cb : Bool) : (clearErrFlags cv cb s).frmOut = s.frmOut := rfl
@[simp] theorem clearErrFlags_turns (cv cb : Bool) : (clearErrFlags cv cb s).turns = s.turns := rfl

/-! `headBranch` -/

@[simp] theorem headBranch_head : (headBranch s).head = s.head := rfl
@[simp] theorem headBranch_tail : (headBranch s).tail = s.tail := rfl
@[simp] theorem headBranch_policy : (headBranch s).policy = s.policy := rfl
@[simp] theorem headBranch_acc : (headBranch s).acc = [] := rfl
@[simp] theorem headBranch_accOvf : (headBranch s).accOvf = false := rfl
@[simp] theorem headBranch_headSeen : (headBranch s).headSeen = true := rfl
@[simp] theorem headBranch_frm : (headBranch s).frm = s.frm := rfl
@[simp] theorem headBranch_txq : (headBranch s).txq = s.txq := rfl
@[simp] theorem headBranch_errBadCmd : (headBranch s).errBadCmd = s.errBadCmd := rfl
@[simp] theorem headBranch_errValueRange : (headBranch s).errValueRange = s.errValueRange := rfl
@[simp] theorem headBranch_cmdIn : (headBranch s).cmdIn = s.cmdIn := rfl
@[simp] theorem headBranch_rxIn : (headBranch s).rxIn = s.rxIn := rfl
@[simp] theorem headBranch_txOut : (headBranch s).txOut = s.txOut := rfl
@[simp] theorem headBranch_frmOut : (headBranch s).frmOut = s.frmOut := rfl
@[simp] theorem headBranch_turns : (headBranch s).turns = s.turns := rfl

/-! `tailBranch` -/

@[simp] theorem tailBranch_head : (tailBranch s).head = s.head := rfl
@[simp] theorem tailBranch_tail : (tailBranch s).tail = s.tail := rfl
@[simp] theorem tailBranch_policy : (tailBranch s).policy = s.policy := rfl
@[simp] theorem tailBranch_acc : (tailBranch s).acc = [] := rfl
@[simp] theorem tailBranch_accOvf : (tailBranch s).accOvf = false := rfl
@[simp] theorem tailBranch_headSeen : (tailBranch s).headSeen = false := rfl
@[simp] theorem tailBranch_frm : (tailBranch s).frm = some (mkframe s) := rfl
@[simp] theorem tailBranch_txq : (tailBranch s).txq = s.txq := rfl
@[simp] theorem tailBranch_errBadCmd : (tailBranch s).errBadCmd = s.errBadCmd := rfl
@[simp] theorem tailBranch_errValueRange : (tailBranch s).errValueRange = s.errValueRange := rfl
@[simp] theorem tailBranch_cmdIn : (tailBranch s).cmdIn = s.cmdIn := rfl
@[simp] theorem tailBranch_rxIn : (tailBranch s).rxIn = s.rxIn := rfl
@[simp] theorem tailBranch_txOut : (tailBranch s).txOut = s.txOut := rfl
@[simp] theorem tailBranch_frmOut : (tailBranch s).frmOut = s.frmOut := rfl
@[simp] theorem tailBranch_turns : (tailBranch s).turns = s.turns := rfl

/-! `deliverTx` -/

@[simp] theorem deliverTx_head (b : Byte) : (deliverTx b s).head = s.head := rfl
@[simp] theorem deliverTx_tail (b : Byte) : (deliverTx b s).tail = s.tail := rfl
@[simp] theorem deliverTx_policy (b : Byte) : (deliverTx b s).policy = s.policy := rfl
@[simp] theorem deliverTx_acc (b : Byte) : (deliverTx b s).acc = s.acc := rfl
@[simp] theorem deliverTx_accOvf (b : Byte) : (deliverTx b s).accOvf = s.accOvf := rfl
@[simp] theorem deliverTx_headSeen (b : Byte) : (deliverTx b s).headSeen = s.headSeen := rfl
@[simp] theorem deliverTx_frm (b : Byte) : (deliverTx b s).frm = s.frm := rfl
@[simp] theorem deliverTx_txq (b : Byte) : (deliverTx b s).txq = s.txq := rfl
@[simp] theorem deliverTx_errBadCmd (b : Byte) : (deliverTx b s).errBadCmd = s.errBadCmd := rfl
@[simp] theorem deliverTx_errValueRange (b : Byte) : (deliverTx b s).errValueRange = s.errValueRange := rfl
@[simp] theorem deliverTx_cmdIn (b : Byte) : (deliverTx b s).cmdIn = s.cmdIn := rfl
@[simp] theorem deliverTx_rxIn (b : Byte) : (deliverTx b s).rxIn = s.rxIn := rfl
@[simp] theorem deliverTx_txOut (b : Byte) : (deliverTx b s).txOut = s.txOut ++ [b] := rfl
@[simp] theorem deliverTx_frmOut (b : Byte) : (deliverTx b s).frmOut = s.frmOut := rfl
@[simp] theorem deliverTx_turns (b : Byte) : (deliverTx b s).turns = s.turns := rfl

/-! `deliverFrm` -/

@[simp] theorem deliverFrm_head (r : FrameRecord) : (deliverFrm r s).head = s.head := rfl
@[simp] theorem deliverFrm_tail (r : FrameRecord) : (deliverFrm r s).tail = s.tail := rfl
@[simp] theorem deliverFrm_policy (r : FrameRecord) : (deliverFrm r s).policy = s.policy := rfl
@[simp] theorem deliverFrm_acc (r : FrameRecord) : (deliverFrm r s).acc = s.acc := rfl
@[simp] theorem deliverFrm_accOvf (r : FrameRecord) : (deliverFrm r s).accOvf = s.accOvf := rfl
@[simp] theorem deliverFrm_headSeen (r : FrameRecord) : (deliverFrm r s).headSeen = s.headSeen := rfl
@[simp] theorem deliverFrm_frm (r : FrameRecord) : (deliverFrm r s).frm = s.frm := rfl
@[simp] theorem deliverFrm_txq (r : FrameRecord) : (deliverFrm r s).txq = s.txq := rfl
@[simp] theorem deliverFrm_errBadCmd (r : FrameRecord) : (deliverFrm r s).errBadCmd = s.errBadCmd := rfl
@[simp] theorem deliverFrm_errValueRange (r : FrameRecord) : (deliverFrm r s).errValueRange = s.errValueRange := rfl
@[simp] theorem deliverFrm_cmdIn (r : FrameRecord) : (deliverFrm r s).cmdIn = s.cmdIn := rfl
@[simp] theorem deliverFrm_rxIn (r : FrameRecord) : (deliverFrm r s).rxIn = s.rxIn := rfl
@[simp] theorem deliverFrm_txOut (r : FrameRecord) : (deliverFrm r s).txOut = s.txOut := rfl
@[simp] theorem deliverFrm_frmOut (r : FrameRecord) : (deliverFrm r s).frmOut = s.frmOut ++ [r] := rfl
@[simp] theorem deliverFrm_turns (r : FrameRecord) : (deliverFrm r s).turns = s.turns := rfl

/-! `setTxq` -/

@[simp] theorem setTxq_head (l : List Byte) : (setTxq l s).head = s.head := rfl
@[simp] theorem setTxq_tail (l : List Byte) : (setTxq l s).tail = s.tail := rfl
@[simp] theorem setTxq_policy (l : List Byte) : (setTxq l s).policy = s.policy := rfl
@[simp] theorem setTxq_acc (l : List Byte) : (setTxq l s).acc = s.acc := rfl
@[simp] theorem setTxq_accOvf (l : List Byte) : (setTxq l s).accOvf = s.accOvf := rfl
@[simp] theorem setTxq_headSeen (l : List Byte) : (setTxq l s).headSeen = s.headSeen := rfl
@[simp] theorem setTxq_frm (l : List Byte) : (setTxq l s).frm = s.frm := rfl
@[simp] theorem setTxq_txq (l : List Byte) : (setTxq l s).txq = l := rfl
@[simp] theorem setTxq_errBadCmd (l : List Byte) : (setTxq l s).errBadCmd = s.errBadCmd := rfl
@[simp] theorem setTxq_errValueRange (l : List Byte) : (setTxq l s).errValueRange = s.errValueRange := rfl
@[simp] theorem setTxq_cmdIn (l : List Byte) : (setTxq l s).cmdIn = s.cmdIn := rfl
@[simp] theorem setTxq_rxIn (l : List Byte) : (setTxq l s).rxIn = s.rxIn := rfl
@[simp] theorem setTxq_txOut (l : List Byte) : (setTxq l s).txOut = s.txOut := rfl
@[simp] theorem setTxq_frmOut (l : List Byte) : (setTxq l s).frmOut = s.frmOut := rfl
@[simp] theorem setTxq_turns (l : List Byte) : (setTxq l s).turns = s.turns := rfl

/-! `clearFrm` -/

@[simp] theorem clearFrm_head : (clearFrm s).head = s.head := rfl
@[simp] theorem clearFrm_tail : (clearFrm s).tail = s.tail := rfl
@[simp] theorem clearFrm_policy : (clearFrm s).policy = s.policy := rfl
@[simp] theorem clearFrm_acc : (clearFrm s).acc = s.acc := rfl
@[simp] theorem clearFrm_accOvf : (clearFrm s).accOvf = s.accOvf := rfl
@[simp] theorem clearFrm_headSeen : (clearFrm s).headSeen = s.headSeen := rfl
@[simp] theorem clearFrm_frm : (clearFrm s).frm = none := rfl
@[simp] theorem clearFrm_txq : (clearFrm s).txq = s.txq := rfl
@[simp] theorem clearFrm_errBadCmd : (clearFrm s).errBadCmd = s.errBadCmd := rfl
@[simp] theorem clearFrm_errValueRange : (clearFrm s).errValueRange = s.errValueRange := rfl
@[simp] theorem clearFrm_cmdIn : (clearFrm s).cmdIn = s.cmdIn := rfl
@[simp] theorem clearFrm_rxIn : (clearFrm s).rxIn = s.rxIn := rfl
@[simp] theorem clearFrm_txOut : (clearFrm s).txOut = s.txOut := rfl
@[simp] theorem clearFrm_frmOut : (clearFrm s).frmOut = s.frmOut := rfl
@[simp] theorem clearFrm_turns : (clearFrm s).turns = s.turns := rfl

/-! `resetBlock` -/

@[simp] theorem resetBlock_head : (resetBlock s).head = 0x40#8 := rfl
@[simp] theorem resetBlock_tail : (resetBlock s).tail = 0x23#8 := rfl
@[simp] theorem resetBlock_policy : (resetBlock s).policy = .wide := rfl
@[simp] theorem resetBlock_acc : (resetBlock s).acc = [] := rfl
@[simp] theorem resetBlock_accOvf : (resetBlock s).accOvf = false := rfl
@[simp] theorem resetBlock_headSeen : (resetBlock s).headSeen = false := rfl
@[simp] theorem resetBlock_frm : (resetBlock s).frm = none := rfl
@[simp] theorem resetBlock_txq : (resetBlock s).txq = [] := rfl
@[simp] theorem resetBlock_errBadCmd : (resetBlock s).errBadCmd = false := rfl
@[simp] theorem resetBlock_errValueRange : (resetBlock s).errValueRange = false := rfl
@[simp] theorem resetBlock_cmdIn : (resetBlock s).cmdIn = s.cmdIn := rfl
@[simp] theorem resetBlock_rxIn : (resetBlock s).rxIn = s.rxIn := rfl
@[simp] theorem resetBlock_txOut : (resetBlock s).txOut = s.txOut := rfl
@[simp] theorem resetBlock_frmOut : (resetBlock s).frmOut = s.frmOut := rfl
@[simp] theorem resetBlock_turns : (resetBlock s).turns = s.turns := rfl

/-! `setTurns` -/

@[simp] theorem setTurns_head (ts : List Turn) : (setTurns ts s).head = s.head := rfl
@[simp] theorem setTurns_tail (ts : List Turn) : (setTurns ts s).tail = s.tail := rfl
@[simp] theorem setTurns_policy (ts : List Turn) : (setTurns ts s).policy = s.policy := rfl
@[simp] theorem setTurns_acc (ts : List Turn) : (setTurns ts s).acc = s.acc := rfl
@[simp] theorem setTurns_accOvf (ts : List Turn) : (setTurns ts s).accOvf = s.accOvf := rfl
@[simp] theorem setTurns_headSeen (ts : List Turn) : (setTurns ts s).headSeen = s.headSeen := rfl
@[simp] theorem setTurns_frm (ts : List Turn) : (setTurns ts s).frm = s.frm := rfl
@[simp] theorem setTurns_txq (ts : List Turn) : (setTurns ts s).txq = s.txq := rfl
@[simp] theorem setTurns_errBadCmd (ts : List Turn) : (setTurns ts s).errBadCmd = s.errBadCmd := rfl
@[simp] theorem setTurns_errValueRange (ts : List Turn) : (setTurns ts s).errValueRange = s.errValueRange := rfl
@[simp] theorem setTurns_cmdIn (ts : List Turn) : (setTurns ts s).cmdIn = s.cmdIn := rfl
@[simp] theorem setTurns_rxIn (ts : List Turn) : (setTurns ts s).rxIn = s.rxIn := rfl
@[simp] theorem setTurns_txOut (ts : List Turn) : (setTurns ts s).txOut = s.txOut := rfl
@[simp] theorem setTurns_frmOut (ts : List Turn) : (setTurns ts s).frmOut = s.frmOut := rfl
@[simp] theorem setTurns_turns (ts : List Turn) : (setTurns ts s).turns = ts := rfl

/-! `takeOffer` takes at most the head of one queue of offers -/

@[simp] theorem takeOffer_head (a : Agent) : (takeOffer a s).head = s.head := by cases a <;> rfl
@[simp] theorem takeOffer_tail (a : Agent) : (takeOffer a s).tail = s.tail := by cases a <;> rfl
@[simp] theorem takeOffer_policy (a : Agent) : (takeOffer a s).policy = s.policy := by cases a <;> rfl
@[simp] theorem takeOffer_acc (a : Agent) : (takeOffer a s).acc = s.acc := by cases a <;> rfl
@[simp] theorem takeOffer_accOvf (a : Agent) : (takeOffer a s).accOvf = s.accOvf := by cases a <;> rfl
@[simp] theorem takeOffer_headSeen (a : Agent) : (takeOffer a s).headSeen = s.headSeen := by cases a <;> rfl
@[simp] theorem takeOffer_frm (a : Agent) : (takeOffer a s).frm = s.frm := by cases a <;> rfl
@[simp] theorem takeOffer_txq (a : Agent) : (takeOffer a s).txq = s.txq := by cases a <;> rfl
@[simp] theorem takeOffer_errBadCmd (a : Agent) : (takeOffer a s).errBadCmd = s.errBadCmd := by cases a <;> rfl
@[simp] theorem takeOffer_errValueRange (a : Agent) :
    (takeOffer a s).errValueRange = s.errValueRange := by cases a <;> rfl
@[simp] theorem takeOffer_txOut (a : Agent) : (takeOffer a s).txOut = s.txOut := by cases a <;> rfl
@[simp] theorem takeOffer_frmOut (a : Agent) : (takeOffer a s).frmOut = s.frmOut := by cases a <;> rfl
@[simp] theorem takeOffer_turns (a : Agent) : (takeOffer a s).turns = s.turns := by cases a <;> rfl
@[simp] theorem takeOffer_host_cmdIn : (takeOffer .host s).cmdIn = s.cmdIn.drop 1 := rfl
@[simp] theorem takeOffer_host_rxIn : (takeOffer .host s).rxIn = s.rxIn := rfl
@[simp] theorem takeOffer_rxSource_cmdIn : (takeOffer .rxSource s).cmdIn = s.cmdIn := rfl
@[simp] theorem takeOffer_rxSource_rxIn : (takeOffer .rxSource s).rxIn = s.rxIn.drop 1 := rfl
@[simp] theorem takeOffer_frameSink : takeOffer .frameSink s = s := rfl
@[simp] theorem takeOffer_txSink : takeOffer .txSink s = s := rfl
@[simp] theorem takeOffer_resetSource : takeOffer .resetSource s = s := rfl

/-! The branches of rx.byte touch ACC, ACC_OVF, HEAD_SEEN and FRM only (R51) -/

@[simp] theorem payloadBranch_head (cap : Nat) (b : Byte) : (payloadBranch cap b s).head = s.head := by
  unfold payloadBranch; split <;> rfl
@[simp] theorem payloadBranch_tail (cap : Nat) (b : Byte) : (payloadBranch cap b s).tail = s.tail := by
  unfold payloadBranch; split <;> rfl
@[simp] theorem payloadBranch_policy (cap : Nat) (b : Byte) : (payloadBranch cap b s).policy = s.policy := by
  unfold payloadBranch; split <;> rfl
@[simp] theorem payloadBranch_headSeen (cap : Nat) (b : Byte) : (payloadBranch cap b s).headSeen = s.headSeen := by
  unfold payloadBranch; split <;> rfl
@[simp] theorem payloadBranch_frm (cap : Nat) (b : Byte) : (payloadBranch cap b s).frm = s.frm := by
  unfold payloadBranch; split <;> rfl
@[simp] theorem payloadBranch_txq (cap : Nat) (b : Byte) : (payloadBranch cap b s).txq = s.txq := by
  unfold payloadBranch; split <;> rfl
@[simp] theorem payloadBranch_errBadCmd (cap : Nat) (b : Byte) : (payloadBranch cap b s).errBadCmd = s.errBadCmd := by
  unfold payloadBranch; split <;> rfl
@[simp] theorem payloadBranch_errValueRange (cap : Nat) (b : Byte) :
    (payloadBranch cap b s).errValueRange = s.errValueRange := by
  unfold payloadBranch; split <;> rfl
@[simp] theorem payloadBranch_cmdIn (cap : Nat) (b : Byte) : (payloadBranch cap b s).cmdIn = s.cmdIn := by
  unfold payloadBranch; split <;> rfl
@[simp] theorem payloadBranch_rxIn (cap : Nat) (b : Byte) : (payloadBranch cap b s).rxIn = s.rxIn := by
  unfold payloadBranch; split <;> rfl
@[simp] theorem payloadBranch_txOut (cap : Nat) (b : Byte) : (payloadBranch cap b s).txOut = s.txOut := by
  unfold payloadBranch; split <;> rfl
@[simp] theorem payloadBranch_frmOut (cap : Nat) (b : Byte) : (payloadBranch cap b s).frmOut = s.frmOut := by
  unfold payloadBranch; split <;> rfl
@[simp] theorem payloadBranch_turns (cap : Nat) (b : Byte) : (payloadBranch cap b s).turns = s.turns := by
  unfold payloadBranch; split <;> rfl
@[simp] theorem rxBranch_head (cap : Nat) (b : Byte) : (rxBranch cap b s).head = s.head := by
  unfold rxBranch; split <;> [rfl; (split <;> [rfl; simp])]
@[simp] theorem rxBranch_tail (cap : Nat) (b : Byte) : (rxBranch cap b s).tail = s.tail := by
  unfold rxBranch; split <;> [rfl; (split <;> [rfl; simp])]
@[simp] theorem rxBranch_policy (cap : Nat) (b : Byte) : (rxBranch cap b s).policy = s.policy := by
  unfold rxBranch; split <;> [rfl; (split <;> [rfl; simp])]
@[simp] theorem rxBranch_txq (cap : Nat) (b : Byte) : (rxBranch cap b s).txq = s.txq := by
  unfold rxBranch; split <;> [rfl; (split <;> [rfl; simp])]
@[simp] theorem rxBranch_errBadCmd (cap : Nat) (b : Byte) : (rxBranch cap b s).errBadCmd = s.errBadCmd := by
  unfold rxBranch; split <;> [rfl; (split <;> [rfl; simp])]
@[simp] theorem rxBranch_errValueRange (cap : Nat) (b : Byte) : (rxBranch cap b s).errValueRange = s.errValueRange := by
  unfold rxBranch; split <;> [rfl; (split <;> [rfl; simp])]
@[simp] theorem rxBranch_cmdIn (cap : Nat) (b : Byte) : (rxBranch cap b s).cmdIn = s.cmdIn := by
  unfold rxBranch; split <;> [rfl; (split <;> [rfl; simp])]
@[simp] theorem rxBranch_rxIn (cap : Nat) (b : Byte) : (rxBranch cap b s).rxIn = s.rxIn := by
  unfold rxBranch; split <;> [rfl; (split <;> [rfl; simp])]
@[simp] theorem rxBranch_txOut (cap : Nat) (b : Byte) : (rxBranch cap b s).txOut = s.txOut := by
  unfold rxBranch; split <;> [rfl; (split <;> [rfl; simp])]
@[simp] theorem rxBranch_frmOut (cap : Nat) (b : Byte) : (rxBranch cap b s).frmOut = s.frmOut := by
  unfold rxBranch; split <;> [rfl; (split <;> [rfl; simp])]
@[simp] theorem rxBranch_turns (cap : Nat) (b : Byte) : (rxBranch cap b s).turns = s.turns := by
  unfold rxBranch; split <;> [rfl; (split <;> [rfl; simp])]

end

end Sys2Proof.Machine
end

