-- ==== Sys2Proof/Laws/Ops.lean ====
section
/-! SUPPORT. What each shared operation and each meaning can do, said once: the cases of its answer. -/

namespace Sys2Proof.Machine

/-- A guarded step happens, or the agent waits and the state is as it was (R10). -/
theorem whenEnabled_cases (c : Bool) (t s : State) :
    (c = true ∧ whenEnabled c t s = .next t) ∨ (c = false ∧ whenEnabled c t s = .next s) := by
  cases c <;> simp [whenEnabled]

theorem whenEnabled_true (t s : State) : whenEnabled true t s = .next t := rfl

theorem whenEnabled_false (t s : State) : whenEnabled false t s = .next s := rfl

@[simp] theorem roomFor_eq_true (n : Nat) (s : State) :
    roomFor n s = true ↔ s.txq.length + n ≤ Config.txDepth := by
  simp [roomFor, fitsIn]

@[simp] theorem roomFor_eq_false (n : Nat) (s : State) :
    roomFor n s = false ↔ Config.txDepth < s.txq.length + n := by
  simp [roomFor, fitsIn]

@[simp] theorem rxReady_eq_true (s : State) : s.rxReady = true ↔ s.frm = none := by
  simp [State.rxReady]

/-- rx.byte takes one of its three branches (R175). -/
theorem rxBranch_cases (cap : Nat) (b : Byte) (s : State) :
    (b = s.head ∧ rxBranch cap b s = headBranch s) ∨
    (b ≠ s.head ∧ b = s.tail ∧ rxBranch cap b s = tailBranch s) ∨
    (b ≠ s.head ∧ b ≠ s.tail ∧ rxBranch cap b s = payloadBranch cap b s) := by
  unfold rxBranch
  split
  · exact .inl ⟨by assumption, rfl⟩
  · split
    · exact .inr (.inl ⟨by assumption, by assumption, rfl⟩)
    · exact .inr (.inr ⟨by assumption, by assumption, rfl⟩)

/-- A payload byte is kept, or dropped with ACC_OVF set (R124). -/
theorem payloadBranch_cases (cap : Nat) (b : Byte) (s : State) :
    (s.acc.length < cap ∧ payloadBranch cap b s = { s with acc := s.acc ++ [b] }) ∨
    (cap ≤ s.acc.length ∧ payloadBranch cap b s = { s with accOvf := true }) := by
  unfold payloadBranch
  split
  · exact .inl ⟨by assumption, rfl⟩
  · exact .inr ⟨by omega, rfl⟩

/-- The state an enabled instruction leaves, by its rule. -/
def effectOf (i : Instr) (s : State) : State :=
  match i with
  | .nop => s
  | .setMarkers hd tl => setMarkerRegs hd tl s
  | .setPolicy p => setPolicyReg p s
  | .clearErr cv cb => clearErrFlags cv cb s
  | .txByte d => emitTx [d] s
  | .txIntToken v => if refusesValue v s.policy then raiseValueOutOfRange s else emitTx (tok (sint32 v)) s
  | .txInt32 v => emitTx (be32 v) s
  | .illegal _ => raiseBadCommand s
  | .rxByte b => rxBranch Config.accCap b s
  | .frmTake => clearFrm (s.frm.elim s (fun r => deliverFrm r s))
  | .txTake => s.txq.head?.elim s (fun b => deliverTx b (setTxq s.txq.tail s))
  | .reset => resetBlock s

/-- No instruction changes which turns are due. -/
@[simp] theorem effectOf_turns (i : Instr) (s : State) : (effectOf i s).turns = s.turns := by
  cases i with
  | txIntToken v => simp only [effectOf]; split <;> rfl
  | frmTake => simp only [effectOf]; cases s.frm <;> rfl
  | txTake => simp only [effectOf]; cases s.txq.head? <;> rfl
  | rxByte b => simp [effectOf]
  | _ => rfl

/-- The answer of every enabled instruction is the state its rule gives. -/
theorem exec_of_enabled (i : Instr) (s : State) (h : enabled i s = true) : exec i s = .next (effectOf i s) := by
  cases i with
  | txByte d => simp only [exec, execTxByte]; rw [show roomFor 1 s = true from h]; rfl
  | txInt32 v => simp only [exec, execTxInt32]; rw [show roomFor 4 s = true from h]; rfl
  | txIntToken v =>
    simp only [exec, execTxIntToken]
    cases hr : refusesValue v s.policy with
    | true => simp [effectOf, hr]
    | false =>
      have : roomFor (tok (sint32 v)).length s = true := by simpa [enabled, nbytes, hr] using h
      simp [this, whenEnabled, effectOf, hr]
  | rxByte b => simp only [exec, execRxByte]; rw [show s.rxReady = true from h]; rfl
  | frmTake =>
    simp only [exec, execFrmTake]
    cases hf : s.frm with
    | none => simp [enabled, hf] at h
    | some r => simp [effectOf, hf]
  | txTake =>
    simp only [exec, execTxTake]
    cases hq : s.txq with
    | nil => simp [enabled, hq] at h
    | cons b rest => simp [effectOf, hq]
  | _ => rfl

/-- An instruction whose step is not enabled waits: the state is as it was (R10, R13). -/
theorem exec_of_not_enabled (i : Instr) (s : State) (h : enabled i s = false) : exec i s = .next s := by
  cases i with
  | txByte d => simp only [exec, execTxByte]; rw [show roomFor 1 s = false from h]; rfl
  | txInt32 v => simp only [exec, execTxInt32]; rw [show roomFor 4 s = false from h]; rfl
  | txIntToken v =>
    simp only [exec, execTxIntToken]
    cases hr : refusesValue v s.policy with
    | true => simp [enabled, hr] at h
    | false =>
      have : roomFor (tok (sint32 v)).length s = false := by simpa [enabled, nbytes, hr] using h
      simp [this, whenEnabled]
  | rxByte b => simp only [exec, execRxByte]; rw [show s.rxReady = false from h]; rfl
  | frmTake =>
    simp only [exec, execFrmTake]
    cases hf : s.frm with
    | none => rfl
    | some r => simp [enabled, hf] at h
  | txTake =>
    simp only [exec, execTxTake]
    cases hq : s.txq with
    | nil => rfl
    | cons b rest => simp [enabled, hq] at h
  | _ => simp [enabled] at h

/-- Every instruction answers a next state: its effect when enabled, the state as it was when it must wait. -/
theorem exec_cases (i : Instr) (s : State) :
    (enabled i s = true ∧ exec i s = .next (effectOf i s)) ∨ (enabled i s = false ∧ exec i s = .next s) := by
  cases h : enabled i s
  · exact .inr ⟨rfl, exec_of_not_enabled i s h⟩
  · exact .inl ⟨rfl, exec_of_enabled i s h⟩

/-- The agent's instruction is the decoding of the unit on its port, and its step is enabled. -/
theorem readyInstr_eq_some {s : State} {a : Agent} {i : Instr} (h : s.readyInstr a = some i) :
    ∃ u, s.unitFor a = some u ∧ decode u = i ∧ enabled i s = true := by
  unfold State.readyInstr at h
  split at h
  · cases h
  · rename_i u hu
    split at h
    · rename_i he
      cases h
      exact ⟨u, hu, rfl, he⟩
    · cases h

/-- The instruction that is ready is one of the agent's own (R181). -/
theorem readyInstr_shape {s : State} {a : Agent} {i : Instr} (h : s.readyInstr a = some i) :
    enabled i s = true ∧
    ((∃ w, a = .host ∧ s.cmdIn.head? = some w ∧ i = decodeCmd w) ∨
     (∃ b, a = .rxSource ∧ s.rxIn.head? = some b ∧ i = .rxByte b ∧ s.frm = none) ∨
     (∃ r, a = .frameSink ∧ s.frm = some r ∧ i = .frmTake) ∨
     (∃ b, a = .txSink ∧ s.txq.head? = some b ∧ i = .txTake) ∨
     (a = .resetSource ∧ i = .reset)) := by
  obtain ⟨u, hu, rfl, he⟩ := readyInstr_eq_some h
  refine ⟨he, ?_⟩
  cases a with
  | host =>
    simp only [State.unitFor, Option.map_eq_some_iff] at hu
    obtain ⟨w, hw, rfl⟩ := hu
    exact .inl ⟨w, rfl, hw, rfl⟩
  | rxSource =>
    simp only [State.unitFor, Option.map_eq_some_iff] at hu
    obtain ⟨b, hb, rfl⟩ := hu
    exact .inr (.inl ⟨b, rfl, hb, rfl, (rxReady_eq_true s).1 he⟩)
  | frameSink =>
    simp only [State.unitFor, Option.map_eq_some_iff] at hu
    obtain ⟨r, hr, rfl⟩ := hu
    exact .inr (.inr (.inl ⟨r, rfl, hr, rfl⟩))
  | txSink =>
    simp only [State.unitFor, Option.map_eq_some_iff] at hu
    obtain ⟨b, hb, rfl⟩ := hu
    exact .inr (.inr (.inr (.inl ⟨b, rfl, hb, rfl⟩)))
  | resetSource =>
    simp only [State.unitFor, Option.some.injEq] at hu
    subst hu
    exact .inr (.inr (.inr (.inr ⟨rfl, rfl⟩)))

/-- An agent has nothing to run exactly when no enabled unit is on its port. -/
theorem readyInstr_eq_none {s : State} {a : Agent} :
    s.readyInstr a = none ↔ ∀ u, s.unitFor a = some u → enabled (decode u) s = false := by
  unfold State.readyInstr
  split
  · rename_i h; simp [h]
  · rename_i u h; simp [h]

/-- Whether a step is enabled does not depend on the offers or the turns. -/
theorem enabled_takeOffer (i : Instr) (a : Agent) (ts : List Turn) (s : State) :
    enabled i (takeOffer a (setTurns ts s)) = enabled i s := by
  cases a <;> cases i <;> rfl

@[simp] theorem unitFor_setTurns (a : Agent) (ts : List Turn) (s : State) :
    (setTurns ts s).unitFor a = s.unitFor a := by
  cases a <;> rfl

@[simp] theorem enabled_setTurns (i : Instr) (ts : List Turn) (s : State) :
    enabled i (setTurns ts s) = enabled i s := by
  cases i <;> rfl

/-- Whether a turn must wait does not depend on the turns that are due. -/
@[simp] theorem mustWait_setTurns (w : List Agent) (t : Turn) (ts : List Turn) (s : State) :
    (setTurns ts s).mustWait w t ↔ s.mustWait w t := by
  simp [State.mustWait]

@[simp] theorem allWait_setTurns (w : List Agent) (l ts : List Turn) (s : State) :
    (setTurns ts s).allWait w l ↔ s.allWait w l := by
  induction l generalizing w <;> simp_all [State.allWait]

@[simp] theorem allWait_nil (w : List Agent) (s : State) : s.allWait w [] := trivial

@[simp] theorem allWait_cons (w : List Agent) (t : Turn) (ts : List Turn) (s : State) :
    s.allWait w (t :: ts) ↔ s.mustWait w t ∧ s.allWait (turnAgent t :: w) ts := Iff.rfl

/-- A turn does nothing exactly when it must wait. -/
theorem moveOf_eq_none {s : State} {w : List Agent} {t : Turn} {ts : List Turn} :
    s.moveOf w t ts = none ↔ s.mustWait w t := by
  unfold State.moveOf State.mustWait
  by_cases hw : turnAgent t ∈ w
  · simp [hw]
  · cases t with
    | once a =>
      have := @readyInstr_eq_none s a
      cases h : s.readyInstr a <;> simp_all [turnAgent]
    | drain => cases h : s.readyInstr .txSink <;> simp_all [turnAgent]

/-- What a turn that need not wait does: its agent's ready instruction, or the end of a drain. -/
theorem moveOf_eq_some {s : State} {w : List Agent} {t : Turn} {ts : List Turn} {m : Move}
    (h : s.moveOf w t ts = some m) : turnAgent t ∉ w ∧
    ((∃ i, s.readyInstr (turnAgent t) = some i ∧ m = (some (turnAgent t, i), turnLeft t ++ ts)) ∨
     (t = .drain ∧ s.readyInstr .txSink = none ∧ m = (none, ts))) := by
  unfold State.moveOf at h
  split at h
  · cases h
  · rename_i hw
    refine ⟨hw, ?_⟩
    cases hr : s.readyInstr (turnAgent t) with
    | some i => simp only [hr, Option.some.injEq] at h; exact .inl ⟨i, rfl, h.symm⟩
    | none =>
      cases t with
      | once a => simp [hr] at h
      | drain => simp only [hr, Option.some.injEq] at h; exact .inr ⟨rfl, hr, h.symm⟩

/-- The agents that have a turn among these, before the agents of `w`. -/
def agentsOf (pre : List Turn) (w : List Agent) : List Agent := (pre.map turnAgent).reverse ++ w

theorem mem_agentsOf {pre : List Turn} {w : List Agent} {a : Agent} :
    a ∈ agentsOf pre w ↔ (∃ x ∈ pre, turnAgent x = a) ∨ a ∈ w := by
  simp [agentsOf]

theorem agentsOf_cons (t : Turn) (pre : List Turn) (w : List Agent) :
    agentsOf (t :: pre) w = agentsOf pre (turnAgent t :: w) := by
  simp [agentsOf]

/-- Turns that must wait are passed over and stay due. -/
theorem nextMove_append {s : State} (pre ts : List Turn) (w : List Agent) (h : s.allWait w pre) :
    s.nextMove w (pre ++ ts) = (s.nextMove (agentsOf pre w) ts).map (fun m => (m.1, pre ++ m.2)) := by
  induction pre generalizing w with
  | nil => simp [agentsOf]
  | cons t pre ih =>
    simp only [List.cons_append, State.nextMove, moveOf_eq_none.2 h.1, ih _ h.2, Option.map_map, agentsOf_cons]
    rfl

/-- Which turn moves: none, where all must wait, or the first that need not. -/
theorem nextMove_cases (s : State) (w : List Agent) (ts : List Turn) :
    (s.allWait w ts ∧ s.nextMove w ts = none) ∨
    (∃ pre t post m, ts = pre ++ t :: post ∧ s.allWait w pre ∧ s.moveOf (agentsOf pre w) t post = some m ∧
      s.nextMove w ts = some (m.1, pre ++ m.2)) := by
  induction ts generalizing w with
  | nil => exact .inl ⟨trivial, rfl⟩
  | cons t ts ih =>
    cases hm : s.moveOf w t ts with
    | some m => exact .inr ⟨[], t, ts, m, rfl, trivial, by simpa [agentsOf] using hm, by simp [State.nextMove, hm]⟩
    | none =>
      have hw := moveOf_eq_none.1 hm
      rcases ih (turnAgent t :: w) with ⟨hall, hn⟩ | ⟨pre, u, post, m, rfl, hpre, hu, hn⟩
      · exact .inl ⟨⟨hw, hall⟩, by simp [State.nextMove, hm, hn]⟩
      · exact .inr ⟨t :: pre, u, post, m, rfl, ⟨hw, hpre⟩, by rwa [agentsOf_cons], by
          simp [State.nextMove, hm, hn]⟩

/-- An agent that has an instruction ready has no turn among turns that all must wait. -/
theorem ready_not_waiting {s : State} {a : Agent} {i : Instr} (hi : s.readyInstr a = some i) (pre : List Turn)
    (w : List Agent) (hw : a ∉ w) (h : s.allWait w pre) : a ∉ agentsOf pre w := by
  induction pre generalizing w with
  | nil => simpa [agentsOf] using hw
  | cons t pre ih =>
    rw [agentsOf_cons]
    refine ih _ ?_ h.2
    rcases h.1 with hm | ⟨b, rfl, hb⟩
    · rintro (_ | ⟨_, hx⟩)
      · exact hw hm
      · exact hw hx
    · have hne : a ≠ b := by
        rintro rfl
        rw [readyInstr_eq_none.2 hb] at hi
        cases hi
      simpa [turnAgent, hne] using hw

/-- What one step can do: hold the state where every turn due must wait, end a drain behind no waiting turn of the tx
sink, or run the ready instruction of the first turn due that need not wait, its agent's offer taken. -/
theorem step_cases (s : State) :
    (s.allWait [] s.turns ∧ step s = .next s) ∨
    (∃ pre post, s.turns = pre ++ .drain :: post ∧ s.allWait [] pre ∧ (∀ x ∈ pre, turnAgent x ≠ .txSink) ∧
      s.readyInstr .txSink = none ∧ step s = .next (setTurns (pre ++ post) s)) ∨
    (∃ pre t post i, s.turns = pre ++ t :: post ∧ s.allWait [] pre ∧ s.readyInstr (turnAgent t) = some i ∧
      step s = exec i (takeOffer (turnAgent t) (setTurns (pre ++ (turnLeft t ++ post)) s))) := by
  unfold step
  rcases nextMove_cases s [] s.turns with ⟨hall, hn⟩ | ⟨pre, t, post, m, ht, hpre, hm, hn⟩
  · exact .inl ⟨hall, by rw [hn]⟩
  · rw [hn]
    obtain ⟨hw, ⟨i, hi, rfl⟩ | ⟨rfl, hd, rfl⟩⟩ := moveOf_eq_some hm
    · exact .inr (.inr ⟨pre, t, post, i, ht, hpre, hi, rfl⟩)
    · refine .inr (.inl ⟨pre, post, ht, hpre, ?_, hd, rfl⟩)
      intro x hx hax
      exact hw (mem_agentsOf.2 (.inl ⟨x, hx, hax⟩))

/-- The first turn that need not wait, its agent having an instruction ready, is the one that moves. -/
theorem step_of_ready {s : State} {pre post : List Turn} {t : Turn} {i : Instr} (ht : s.turns = pre ++ t :: post)
    (hpre : s.allWait [] pre) (hi : s.readyInstr (turnAgent t) = some i) :
    step s = exec i (takeOffer (turnAgent t) (setTurns (pre ++ (turnLeft t ++ post)) s)) := by
  unfold step
  rw [ht, nextMove_append pre _ _ hpre]
  simp [State.nextMove, State.moveOf, hi, ready_not_waiting hi pre [] (by simp) hpre]

/-- A drain that finds TXQ empty, no turn of the tx sink waiting before it, is over. -/
theorem step_of_drained {s : State} {pre post : List Turn} (ht : s.turns = pre ++ .drain :: post)
    (hpre : s.allWait [] pre) (hno : ∀ x ∈ pre, turnAgent x ≠ .txSink) (hd : s.readyInstr .txSink = none) :
    step s = .next (setTurns (pre ++ post) s) := by
  have hw : Agent.txSink ∉ agentsOf pre [] := by
    rw [mem_agentsOf]
    rintro (⟨x, hx, hax⟩ | h)
    · exact hno x hx hax
    · cases h
  unfold step
  rw [ht, nextMove_append pre _ _ hpre]
  simp [State.nextMove, State.moveOf, turnAgent, hw, hd]

/-- Turns that must wait at the front stay at the front, whatever moves behind them. -/
theorem waiting_front_stays {s t : State} {pre rest : List Turn} (hpre : s.allWait [] pre)
    (hr : s.turns = pre ++ rest) (h : step s = .next t) : ∃ rest', t.turns = pre ++ rest' := by
  unfold step at h
  rw [hr, nextMove_append pre rest [] hpre] at h
  cases hm : s.nextMove (agentsOf pre []) rest with
  | none => simp only [hm, Option.map_none, Host.Outcome.next.injEq] at h; exact ⟨rest, by rw [← h, hr]⟩
  | some m =>
    obtain ⟨_ | ⟨a, i⟩, m2⟩ := m
    · simp only [hm, Option.map_some, Host.Outcome.next.injEq] at h; exact ⟨m2, by rw [← h]; rfl⟩
    · simp only [hm, Option.map_some] at h
      refine ⟨m2, ?_⟩
      rcases exec_cases i (takeOffer a (setTurns (pre ++ m2) s)) with ⟨_, e⟩ | ⟨_, e⟩ <;> rw [e] at h <;> cases h
      · rw [effectOf_turns]; simp
      · simp

end Sys2Proof.Machine
end

