-- ==== Sys2Proof/Laws/PerInstr.lean ====
section
/-! SUPPORT. Statements about every instruction as syntax, one lemma per constructor. -/

namespace Sys2Proof.Laws.UnitOnAgentPort

/-- The unit of an instruction is on the port of the agent whose step it is (R60, R181). -/
def Statement (i : Instr) : Prop := (encode i).port = i.agent.port

theorem nop : Statement .nop := rfl
theorem setMarkers (head tail : Byte) : Statement (.setMarkers head tail) := rfl
theorem setPolicy (p : Policy) : Statement (.setPolicy p) := rfl
theorem clearErr (cv cb : Bool) : Statement (.clearErr cv cb) := rfl
theorem txByte (d : Byte) : Statement (.txByte d) := rfl
theorem txIntToken (v : Operand) : Statement (.txIntToken v) := rfl
theorem txInt32 (v : Operand) : Statement (.txInt32 v) := rfl
theorem illegal (w : CmdWord) : Statement (.illegal w) := rfl
theorem rxByte (b : Byte) : Statement (.rxByte b) := rfl
theorem frmTake : Statement .frmTake := rfl
theorem txTake : Statement .txTake := rfl
theorem reset : Statement .reset := rfl

end Sys2Proof.Laws.UnitOnAgentPort
end

