-- ==== Sys2Proof/Laws/Run.lean ====
section
/-! SUPPORT. What one step leaves, and the inductions over runs, packaged once. -/

namespace Sys2Proof.Machine

/-- The state one step leaves: the state held, a drain over, or the effect of the instruction that was ready; the turns
left due are among those that were. -/
theorem step_next_cases {s t : State} (h : step s = .next t) :
    t = s ∨ (∃ ts, (∀ x ∈ ts, x ∈ s.turns) ∧ t = setTurns ts s) ∨
    (∃ ts x i, (∀ y ∈ ts, y ∈ s.turns) ∧ x ∈ s.turns ∧ s.readyInstr (turnAgent x) = some i ∧
      t = effectOf i (takeOffer (turnAgent x) (setTurns ts s))) := by
  rcases step_cases s with ⟨_, h'⟩ | ⟨pre, post, ht, _, _, _, h'⟩ | ⟨pre, x, post, i, ht, _, hi, h'⟩ <;> rw [h'] at h
  · cases h; exact .inl rfl
  · cases h
    refine .inr (.inl ⟨pre ++ post, ?_, rfl⟩)
    intro y hy
    simp only [ht, List.mem_append, List.mem_cons] at hy ⊢
    tauto
  · rw [exec_of_enabled _ _ (by rw [enabled_takeOffer]; exact (readyInstr_shape hi).1)] at h
    cases h
    refine .inr (.inr ⟨pre ++ (turnLeft x ++ post), x, i, ?_, by simp [ht], hi, rfl⟩)
    intro y hy
    cases x <;> simp only [ht, turnLeft, List.mem_append, List.mem_cons, List.nil_append, List.not_mem_nil] at hy ⊢ <;>
      tauto

/-- What every step keeps, every run keeps. -/
theorem run_keeps {P : State → Prop} (hP : ∀ s t, P s → step s = .next t → P t) (k : Nat) :
    ∀ s t : State, P s → Sys2Proof.core.run k s = .next t → P t := by
  induction k with
  | zero => intro s t hs h; cases h; exact hs
  | succ k ih =>
    intro s t hs h
    simp only [Host.Core.run] at h
    split at h
    · exact ih _ _ (hP _ _ hs (by assumption)) h
    · cases h
    · cases h

@[simp] theorem load_nil (s : State) : s.load [] = s := by simp [State.load]

/-- Loading one program behind another is loading the two as one (R73). -/
theorem load_append (xs ys : List Item) (s : State) : s.load (xs ++ ys) = (s.load xs).load ys := by
  simp [State.load]

/-- A run of two steps whose second is a meaning's answer. -/
theorem run_two {s u v : State} {i : Instr} (h1 : step s = .next u) (h2 : step u = exec i v) :
    Sys2Proof.core.run 2 s = exec i v := by
  have e1 : Sys2Proof.core.step s = .next u := h1
  have e2 : Sys2Proof.core.step u = exec i v := h2
  simp only [Host.Core.run, e1, e2]
  cases exec i v <;> rfl

/-- Instructions one after another: those that come later run on the state those before them left. -/
theorem execAll_append (xs ys : List Instr) (s t : State) (h : execAll xs s = .next t) :
    execAll (xs ++ ys) s = execAll ys t := by
  induction xs generalizing s with
  | nil => cases h; rfl
  | cons x xs ih =>
    simp only [execAll, List.cons_append] at *
    split at h
    · exact ih _ h
    · cases h
    · cases h

end Sys2Proof.Machine
end

