-- ==== Sys2Proof/Tests/Slice0.lean ====
section
/-! SUPPORT. Tests, each expected result taken from spec/95_test_vectors.md or the example of the rule named, and the
witnesses that the hypotheses of every obligation can be met. -/

namespace Sys2Proof.Tests

open Sys2Proof Sys2Proof.Machine

/-- The state an instruction leaves. -/
def after (i : Instr) (s : State) : Option State :=
  match exec i s with
  | .next t => some t
  | .fault _ => none
  | .refused _ => none

/-- The state after rx bytes with an accumulator of `cap` bytes, each taken as R121 says (FRM none throughout). -/
def rxAll (cap : Nat) (bs : List Byte) (s : State) : State := bs.foldl (fun u b => rxBranch cap b u) s

/-! ### Well-formedness: the one check (R65) -/

theorem test_illegal_nop_refused : (Instr.illegal 0x0012345678#40).wellFormed = false := by decide
theorem test_illegal_txByte_refused : (Instr.illegal 0x1000000041#40).wellFormed = false := by decide
theorem test_illegal_reserved_accepted : (Instr.illegal 0x1000000140#40).wellFormed = true := by decide
theorem test_illegal_opcode_accepted : (Instr.illegal 0x1300000000#40).wellFormed = true := by decide

/-! ### Decoding, each word written out from the patterns of R62 -/

theorem test_decode_nop :
    decodeCmd 0b0000000000000000000000000000000000000000#40 = .nop := by decide
theorem test_decode_setMarkers :
    decodeCmd 0b0000000100000000000000000000001100000010#40 = .setMarkers 0x02#8 0x03#8 := by decide
theorem test_decode_setPolicy :
    decodeCmd 0b0000001000000000000000000000000000000001#40 = .setPolicy .reject := by decide
theorem test_decode_clearErr_v :
    decodeCmd 0b0000001100000000000000000000000000000010#40 = .clearErr true false := by decide
theorem test_decode_clearErr_b :
    decodeCmd 0b0000001100000000000000000000000000000001#40 = .clearErr false true := by decide
theorem test_decode_txByte :
    decodeCmd 0b0001000000000000000000000000000001000000#40 = .txByte 0x40#8 := by decide
theorem test_decode_txIntToken :
    decodeCmd 0b0001000111111111111111111111111111110100#40 = .txIntToken 0xFFFFFFF4#32 := by decide
theorem test_decode_txInt32 :
    decodeCmd 0b0001001011111111111111111111111111111111#40 = .txInt32 0xFFFFFFFF#32 := by decide
theorem test_decode_illegal_reserved : decodeCmd 0x0200000002#40 = .illegal 0x0200000002#40 := by decide
theorem test_decode_illegal_opcode : decodeCmd 0xFFFFFFFFFF#40 = .illegal 0xFFFFFFFFFF#40 := by decide
theorem test_decode_rx : decodeBits .rx 8 0x41 = .ok (.rxByte 0x41#8) := by decide
theorem test_decode_frm : decodeBits .frm 32 0x00040002 = .ok .frmTake := by decide
theorem test_decode_frm_reserved : decodeBits .frm 32 0x00100000 = .error .fstatReservedBits := by decide
theorem test_decode_tx : decodeBits .tx 8 0x31 = .ok .txTake := by decide
theorem test_decode_rst : decodeBits .rst 1 1 = .ok .reset := by decide
theorem test_decode_width : decodeBits .cmd 32 0 = .error .notTheUnitsWidth := by decide

/-! ### The command rows, from reset: STATUS after the word (95_test_vectors.md 2.1) -/

/-- STATUS after one command word. -/
def statusAfter (w : CmdWord) (s : State) : Option Vec32 := (after (decodeCmd w) s).map State.status

theorem test_status_reset : State.reset.status = 0x23400002#32 := by decide
theorem test_nop_status : statusAfter 0x0012345678#40 State.reset = some 0x23400002#32 := by decide
theorem test_setMarkers_status : statusAfter 0x0100000302#40 State.reset = some 0x03020002#32 := by decide
theorem test_setMarkers_bad : statusAfter 0x0100010302#40 State.reset = some 0x23400022#32 := by decide
theorem test_setPolicy_status : statusAfter 0x0200000001#40 State.reset = some 0x23400082#32 := by decide
theorem test_illegal_status : statusAfter 0x7F00000000#40 State.reset = some 0x23400022#32 := by decide

/-- Both sticky flags set and REJECT (95_test_vectors.md 2.6): STATUS 0x234000E2. -/
def bothFlags : State := { State.reset with policy := .reject, errBadCmd := true, errValueRange := true }

theorem test_clearErr_cb : statusAfter 0x0300000001#40 bothFlags = some 0x234000C2#32 := by decide
theorem test_clearErr_cv : statusAfter 0x0300000002#40 bothFlags = some 0x234000A2#32 := by decide

/-! ### The encoders (95_test_vectors.md 2.2 to 2.4) -/

theorem test_txByte : (after (.txByte 0x41#8) State.reset).map State.txq = some [0x41#8] := by decide
theorem test_token_minus12 : tok (sint32 0xFFFFFFF4#32) = [0x30#8, 0x30#8, 0x31#8, 0x32#8] := by decide
theorem test_token_minus1000 : tok (sint32 0xFFFFFC18#32) = [0x30#8, 0x31#8, 0x30#8, 0x30#8, 0x30#8] := by decide
theorem test_token_minInt : tok (sint32 0x80000000#32) =
    [0x30#8, 0x32#8, 0x31#8, 0x34#8, 0x37#8, 0x34#8, 0x38#8, 0x33#8, 0x36#8, 0x34#8, 0x38#8] := by decide
theorem test_txIntToken : (after (.txIntToken 5#32) State.reset).map State.txq =
    some [0x31#8, 0x30#8, 0x30#8, 0x35#8] := by decide
theorem test_txIntToken_reject : (after (.txIntToken 0xFFFFFC18#32) { State.reset with policy := .reject }).map
    (fun t => (t.txq, t.errValueRange)) = some ([], true) := by decide
theorem test_txInt32 : (after (.txInt32 0x000003E8#32) State.reset).map State.txq =
    some [0x00#8, 0x00#8, 0x03#8, 0xE8#8] := by decide
theorem test_txTake : (after .txTake { State.reset with txq := [0x31#8, 0x30#8, 0x30#8, 0x35#8] }).map
    (fun t => (t.txOut, t.txq)) = some ([0x31#8], [0x30#8, 0x30#8, 0x35#8]) := by decide
theorem test_room_eleven : fitsIn 11 4 { State.reset with txq := List.replicate 8 0#8 } = false := by decide

/-! ### The frame decoder (95_test_vectors.md 2.5) -/

/-- FSTAT of the record in FRM. -/
def fstatOf (s : State) : Option Vec32 := s.frm.map FrameRecord.fstat

theorem test_frame_ab : fstatOf (rxAll 64 [0x40#8, 0x41#8, 0x42#8, 0x23#8] State.reset) =
    some 0x00000002#32 := by decide
theorem test_frame_headless : fstatOf (rxAll 64 [0x58#8, 0x59#8, 0x23#8] State.reset) =
    some 0x00040002#32 := by decide
theorem test_frame_empty_headless : fstatOf (rxAll 64 [0x23#8] State.reset) = some 0x00050000#32 := by decide
theorem test_frame_nonascii : fstatOf (rxAll 64 [0x40#8, 0x41#8, 0xC3#8, 0x23#8] State.reset) =
    some 0x00020002#32 := by decide
theorem test_frame_overflow : fstatOf (rxAll 2 [0x40#8, 0x41#8, 0x42#8, 0x43#8, 0x23#8] State.reset) =
    some 0x00080002#32 := by decide
theorem test_status_overflow : (rxAll 2 [0x40#8, 0x41#8, 0x42#8, 0x43#8] State.reset).status =
    0x2340001E#32 := by decide
theorem test_rxByte_head : (after (.rxByte 0x40#8) { State.reset with acc := [0x41#8] }).map
    (fun t => (t.acc, t.headSeen)) = some ([], true) := by decide
theorem test_rxByte_stalled : (after (.rxByte 0x43#8) { State.reset with frm := some (mkframe State.reset) }).map
    State.acc = some [] := by decide
theorem test_frmTake : (after .frmTake { State.reset with frm := some (mkframe State.reset) }).map
    (fun t => (t.frm, t.frmOut.map FrameRecord.fstat)) = some (none, [0x00050000#32]) := by decide

/-! ### Reset and steps -/

theorem test_reset_keeps_offer : (after .reset { bothFlags with rxIn := [0x43#8], txq := [0x30#8] }).map
    (fun t => (t.status, t.rxIn, t.txq)) = some (0x23400002#32, [0x43#8], []) := by decide

/-- The state after one step. -/
def stepped (s : State) : Option State :=
  match step s with
  | .next t => some t
  | .fault _ => none
  | .refused _ => none

theorem test_step_fetches : (stepped (State.reset.withFetchWord 40 0x0100000302)).map State.status =
    some 0x03020002#32 := by decide
/-- P6 (95_test_vectors.md section 3): 'C' offered while a record waits, then `reset`, `rx '#'` and `take`. -/
def stalled : State :=
  { State.reset with rxIn := [0x43#8, 0x23#8], frm := some (mkframe State.reset),
                     turns := [.once .rxSource, .once .resetSource, .once .rxSource, .once .frameSink] }

theorem test_step_stalled_offer_waits : (stepped stalled).map (fun t => (t.rxIn, t.turns, t.status)) =
    some ([0x43#8, 0x23#8], [.once .rxSource, .once .rxSource, .once .frameSink], 0x23400002#32) := by decide
theorem test_step_stalled_offer_taken :
    (stepped { stalled with frm := none, turns := stalled.turns.eraseIdx 1 }).map
      (fun t => (t.acc, t.rxIn, t.turns)) = some ([0x43#8], [0x23#8], [.once .rxSource, .once .frameSink]) := rfl
theorem test_step_all_wait : stepped { stalled with turns := [.once .rxSource] } =
    some { stalled with turns := [.once .rxSource] } := by decide
theorem test_step_drain_over : (stepped { stalled with turns := [.drain, .once .frameSink] }).map State.turns =
    some [.once .frameSink] := by decide
theorem test_step_drain_goes_on : (stepped { stalled with txq := [0x30#8, 0x35#8], turns := [.drain] }).map
    (fun t => (t.txOut, t.turns)) = some ([0x30#8], [.drain]) := by decide
/-- From reset `txtake 1`, `txdrain`, `tx_int_token 5`: the lines run in the order written (R73), so the drain comes
after the byte that txtake waits for. -/
def takeThenDrain : State := State.reset.load [.txTake, .txDrain, .cmd 0x1100000005#40]

theorem test_step_drain_waits_behind_take : (stepped takeThenDrain).map (fun t => (t.txq, t.turns)) =
    some ([0x31#8, 0x30#8, 0x30#8, 0x35#8], [.once .txSink, .drain]) := by decide
theorem test_load : ((State.reset.load [.cmd 0x1100000005#40, .txTake, .rx 0x40#8]).turns) =
    [.once .host, .once .txSink, .once .rxSource] := by decide

/-! ### The assembler (95_test_vectors.md 1.6, 1.9, 2.6) -/

theorem test_asm_array : assembleLine "enc_int_array ['@'], [5, -12, 999], ['#'] ; 1.6".toList =
    .ok [.cmd 0x1000000040#40, .cmd 0x1100000005#40, .cmd 0x11FFFFFFF4#40, .cmd 0x11000003E7#40,
      .cmd 0x1000000023#40] := by decide
theorem test_asm_text_refused : assembleLine "enc_text \"Oé\", \"@\", \"#\"".toList =
    .error (.nonAscii 233) := by decide
theorem test_asm_word : assembleLine ".word 0x7F00000000".toList = .ok [.cmd 0x7F00000000#40] := by decide
theorem test_asm_markers : assembleLine "set_markers 0x02, 0x03".toList = .ok [.cmd 0x0100000302#40] := by decide
theorem test_asm_rx : assembleLine "rx \"@A\"".toList = .ok [.rx 0x40#8, .rx 0x41#8] := by decide
theorem test_asm_byte_range : assembleLine "tx_byte 256".toList = .error (.byteRange 256) := by decide
theorem test_source_discarded_run : sourceFits 2 0x40#8 0x23#8 []
    [0x40#8, 0x41#8, 0x42#8, 0x43#8, 0x40#8, 0x44#8, 0x23#8] = true := by decide
theorem test_source_long_frame : sourceFits 2 0x40#8 0x23#8 [] [0x40#8, 0x41#8, 0x42#8, 0x43#8, 0x23#8] = false := by
  decide
theorem test_scalar_decode : decodeScalar 0xFF#8 0xFF#8 0xFF#8 0xF4#8 = -12 := by decide

/-! ### Witnesses: the hypotheses of the obligations can be met, each clause at a boundary -/

/-- TXQ with `n` bytes of room. -/
def withRoom (n : Nat) : State := { State.reset with txq := List.replicate (Config.txDepth - n) 0#8 }

theorem withRoom_length (n : Nat) (h : n ≤ 11) : (withRoom n).txq.length + n = Config.txDepth := by
  simp [withRoom, Config.txDepth]; omega

/-- A record of the empty frame. -/
def someRecord : FrameRecord := mkframe State.reset

/-- ACC holding `n` bytes that are no marker. -/
def withAcc (n : Nat) : State := { State.reset with acc := List.replicate n 0x41#8 }

theorem witness_DecodeOfEncode : (Instr.illegal 0x1300000000#40).wellFormed = true := by decide
theorem witness_EncodeOfDecode : decodeCmd 0x0300000003#40 ≠ .nop := by decide
theorem witness_IllegalEncodings_effect : decodeCmd 0x0200000002#40 = .illegal 0x0200000002#40 := by decide
theorem witness_IllegalEncodings_opcode : illegalEncoding 0x1300000000#40 := .inl (by decide)
theorem witness_RawBitsRejected :
    decodeBits .cmd 40 0xFFFFFFFFFF = .ok (.illegal 0xFFFFFFFFFF#40) ∧ decodeBits .rx 8 0xFF = .ok (.rxByte 0xFF#8) ∧
    decodeBits .tx 8 0xFF = .ok .txTake ∧ decodeBits .frm 32 0x000FFFFF = .ok .frmTake ∧
    decodeBits .rst 1 1 = .ok .reset := by decide

/-- A command on offer with TXQ full, the host's turn first. -/
def blocked : State := { withRoom 0 with cmdIn := [0x1000000041#40], turns := [.once .host] }

theorem blocked_not_enabled : enabled (decodeCmd 0x1000000041#40) blocked = false := by
  rw [show decodeCmd 0x1000000041#40 = .txByte 0x41#8 by decide]
  simp [enabled, nbytes, blocked, withRoom]

theorem blocked_waits : blocked.mustWait [] (.once .host) := by
  refine .inr ⟨_, rfl, ?_⟩
  intro u hu
  obtain rfl : PortUnit.cmd 0x1000000041#40 = u := by simpa [State.unitFor, blocked] using hu
  exact blocked_not_enabled

theorem witness_StepRunsDecoded :
    (setTurns [.once .host, .once .resetSource] blocked).turns = [.once .host] ++ .once .resetSource :: [] ∧
    (setTurns [.once .host, .once .resetSource] blocked).allWait [] [.once .host] ∧
    (setTurns [.once .host, .once .resetSource] blocked).unitFor .resetSource = some .rst := by
  refine ⟨rfl, ?_, rfl⟩
  simpa using blocked_waits
theorem witness_StepTakesOffer_cmd :
    enabled (decodeCmd 0x12FFFFFFFF#40)
      { State.reset with turns := [.once .host], cmdIn := [0x12FFFFFFFF#40] } = true := by decide
theorem witness_StepTakesOffer_others :
    { State.reset with rxIn := [0x40#8] }.frm = none ∧ stalled.frm = some (mkframe State.reset) ∧
    { State.reset with txq := [0x31#8], turns := [.drain] }.txq = 0x31#8 :: [] := by decide
theorem witness_StepWaits_all : blocked.allWait [] blocked.turns := ⟨blocked_waits, trivial⟩
theorem witness_StepWaits_drain : { State.reset with turns := [.drain] }.turns = [] ++ .drain :: [] ∧
    State.reset.txq = [] := by decide
theorem witness_FetchWordIsRun_cmd :
    0x1000000041 < 2 ^ 40 ∧ enabled (decodeCmd (BitVec.ofNat 40 0x1000000041)) State.reset = true := by decide
theorem witness_FetchWordIsRun_rx : 0x41 < 2 ^ 8 ∧ State.reset.frm = none := by decide
theorem witness_FetchWordIsRun_frm : 0x000FFFFF < 2 ^ 20 ∧ 2 ^ 20 ≤ 0x00100000 ∧ 1 < 2 := by decide
theorem witness_RoomRule : (withRoom 0).txq.length ≤ Config.txDepth ∧ State.reset.txq = [] ∧
    enabled (.txByte 0x41#8) (withRoom 0) = false := by
  refine ⟨?_, rfl, ?_⟩ <;> simp [enabled, nbytes, withRoom]
theorem witness_BytesEmittedCount :
    enabled (decodeCmd 0x1000000041#40) State.reset = true ∧
    exec (decodeCmd 0x1000000041#40) State.reset = .next { State.reset with txq := [0x41#8] } :=
  ⟨by decide, rfl⟩
theorem witness_BlockedCommandHoldsPort :
    enabled (decodeCmd 0x1000000041#40) blocked = false ∧ step blocked = .next blocked ∧
    { blocked with turns := [.once .host, .once .txSink] }.txq = blocked.txq.head (by simp [blocked, withRoom,
      Config.txDepth]) :: blocked.txq.tail ∧
    enabled (decodeCmd 0x1000000041#40) { blocked with txq := blocked.txq.tail } = true := by
  refine ⟨blocked_not_enabled, ?_, (List.cons_head_tail _).symm, ?_⟩
  · rcases step_cases blocked with ⟨_, h⟩ | ⟨pre, post, ht, _⟩ | ⟨pre, t, post, i, ht, _, hi, _⟩
    · exact h
    · cases pre <;> simp [blocked] at ht
    · obtain rfl : t = .once .host := by cases pre <;> simp_all [blocked]
      rw [show turnAgent (.once .host) = .host from rfl,
        readyInstr_eq_none.2 (by obtain h | ⟨a, ha, h⟩ := blocked_waits <;> [cases h; (cases ha; exact h)])] at hi
      cases hi
  · rw [show decodeCmd 0x1000000041#40 = .txByte 0x41#8 by decide]
    simp [enabled, nbytes, blocked, withRoom, Config.txDepth]
theorem witness_TxByteResult_room : (withRoom 1).txq.length + 1 ≤ Config.txDepth :=
  (withRoom_length 1 (by decide)).le
theorem witness_TxByteResult_full : Config.txDepth < (withRoom 0).txq.length + 1 := by
  have := withRoom_length 0 (by decide); omega
theorem witness_TxByteResult_words :
    opcOf 0x10000000FF#40 = 0x10#8 ∧ (opdOf 0x10000000FF#40).extractLsb' 8 24 = 0#24 ∧
    opcOf 0x1000000100#40 = 0x10#8 ∧ (opdOf 0x1000000100#40).extractLsb' 8 24 ≠ 0#24 := by decide
theorem witness_TxIntTokenResult_refused :
    bothFlags.policy = .reject ∧ 1000 ≤ (sint32 0xFFFFFC18#32).natAbs := by decide
theorem witness_TxIntTokenResult_small : (sint32 0xFFFFFC19#32).natAbs < 1000 := by decide
theorem witness_TxIntTokenResult_room :
    (withRoom 11).policy = .wide ∧
    (withRoom 11).txq.length + (tok (sint32 0x80000000#32)).length ≤ Config.txDepth := by
  refine ⟨rfl, ?_⟩
  rw [test_token_minInt]
  exact (withRoom_length 11 (by decide)).le
theorem witness_TxIntTokenResult_full :
    (withRoom 10).policy = .wide ∧
    Config.txDepth < (withRoom 10).txq.length + (tok (sint32 0x80000000#32)).length := by
  refine ⟨rfl, ?_⟩
  rw [test_token_minInt]
  have := withRoom_length 10 (by decide)
  simp only [List.length_cons, List.length_nil]; omega
theorem witness_TxIntTokenResult_word : opcOf 0x11FFFFFFF4#40 = 0x11#8 := by decide
theorem witness_TxInt32Result_room : (withRoom 4).txq.length + 4 ≤ Config.txDepth :=
  (withRoom_length 4 (by decide)).le
theorem witness_TxInt32Result_full : Config.txDepth < (withRoom 3).txq.length + 4 := by
  have := withRoom_length 3 (by decide); omega
theorem witness_TxInt32Result_word : opcOf 0x12FFFFFFFF#40 = 0x12#8 := by decide
theorem witness_TxTakeResult : { State.reset with txq := [0x31#8] }.txq = 0x31#8 :: [] ∧ State.reset.txq = [] := by
  decide
theorem witness_TokenShape : -(2 ^ 31) ≤ (-2147483648 : Int) ∧ (-2147483648 : Int) < 2 ^ 31 := by decide
theorem witness_DecimalDigits : 0 < 1 := by decide
theorem witness_HeadByteResult : (withAcc 3).frm = none := rfl
theorem witness_TailByteResult : State.reset.frm = none ∧ State.reset.tail ≠ State.reset.head := by decide
theorem witness_PayloadByteResult_room :
    0x41#8 ≠ State.reset.head ∧ 0x41#8 ≠ State.reset.tail ∧
    (withAcc (Config.accCap - 1)).acc.length < Config.accCap := by
  refine ⟨by decide, by decide, ?_⟩
  simp [withAcc, Config.accCap]
theorem witness_PayloadByteResult_full : Config.accCap ≤ (withAcc Config.accCap).acc.length := by simp [withAcc]
theorem witness_RxStallsWhilePending :
    stalled.frm ≠ none ∧ (∃ r, stalled.frm = some r) ∧ stalled.rxIn = 0x43#8 :: [0x23#8] ∧
    stalled.turns = .once .rxSource :: .once .resetSource :: [.once .rxSource, .once .frameSink] :=
  ⟨by decide, ⟨_, rfl⟩, rfl, rfl⟩
theorem witness_RxStallsWhilePending_take :
    (setTurns [.once .rxSource, .once .frameSink] stalled).turns = .once .rxSource :: .once .frameSink :: [] ∧
    (setTurns [.once .rxSource, .once .frameSink] stalled).frm = some (mkframe State.reset) := by decide
theorem witness_FrmTakeResult : { State.reset with frm := some someRecord }.frm = some someRecord ∧
    State.reset.frm = none := by decide
theorem witness_DecoderTransitions :
    exec (.rxByte 0x23#8) State.reset = .next (tailBranch State.reset) ∧ State.reset.decoderState = .idle ∧
    (withAcc 1).decoderState = .loose ∧ { State.reset with headSeen := true }.decoderState = .accum :=
  ⟨rfl, rfl, rfl, rfl⟩
theorem reset_wf : State.reset.acc.length ≤ Config.accCap ∧ State.reset.txq.length ≤ Config.txDepth := by decide
theorem witness_DecoderTransitionsByOthers :
    { State.reset with frm := some someRecord }.Wf ∧
    { State.reset with frm := some someRecord }.decoderState = .pending := by
  refine ⟨⟨by decide, by decide, by decide, fun _ => by decide, ?_, ?_⟩, rfl⟩
  · intro r h
    obtain rfl : someRecord = r := by simpa using h
    exact ⟨by decide, by decide, by decide, by decide, by decide⟩
  · intro r h; simp [State.reset] at h
theorem witness_FramingIdempotence :
    State.reset.head ≠ State.reset.tail ∧ [0x41#8] ≠ [] ∧ State.reset.head ∉ [0x41#8] ∧
    State.reset.tail ∉ [0x41#8] ∧ (List.replicate Config.accCap 0x41#8).length ≤ Config.accCap := by
  refine ⟨by decide, by decide, by decide, by decide, by simp⟩
theorem witness_RepeatedHeadResets :
    State.reset.head ∉ [0x41#8, 0x41#8] ∧ State.reset.tail ∉ [0x42#8] ∧ [0x42#8].length ≤ Config.accCap := by decide
theorem witness_EqualMarkersLatchNothing :
    { State.reset with tail := 0x40#8 }.head = { State.reset with tail := 0x40#8 }.tail ∧
    execAll [.rxByte 0x40#8, .nop] { State.reset with tail := 0x40#8 } =
      .next { State.reset with tail := 0x40#8, headSeen := true } := ⟨rfl, rfl⟩
theorem witness_PayloadHoldsNoMarker :
    ((withAcc 1).head ∉ (withAcc 1).acc ∧ (withAcc 1).tail ∉ (withAcc 1).acc) ∧
    exec (.rxByte 0x23#8) (withAcc 1) = .next (tailBranch (withAcc 1)) := ⟨by decide, rfl⟩
theorem witness_HostNextPacket :
    State.reset.frm = none ∧ someRecord.empty = true ∧ (mkframe (withAcc 1)).empty = false ∧
    (mkframe (withAcc 1)).nonascii = false ∧
    (mkframe { State.reset with acc := [0xC3#8] }).nonascii = true := by decide
theorem witness_NopResult : opcOf 0x0012345678#40 = 0x00#8 := by decide
theorem witness_SetMarkersResult :
    opcOf 0x010000FFFF#40 = 0x01#8 ∧ (opdOf 0x010000FFFF#40).extractLsb' 16 16 = 0#16 ∧
    opcOf 0x0100010000#40 = 0x01#8 ∧ (opdOf 0x0100010000#40).extractLsb' 16 16 ≠ 0#16 := by decide
theorem witness_SetPolicyResult :
    opcOf 0x0200000001#40 = 0x02#8 ∧ (opdOf 0x0200000001#40).extractLsb' 1 31 = 0#31 ∧
    opcOf 0x0200000002#40 = 0x02#8 ∧ (opdOf 0x0200000002#40).extractLsb' 1 31 ≠ 0#31 := by decide
theorem witness_ClearErrResult :
    opcOf 0x0300000003#40 = 0x03#8 ∧ (opdOf 0x0300000003#40).extractLsb' 2 30 = 0#30 ∧
    opcOf 0x0300000004#40 = 0x03#8 ∧ (opdOf 0x0300000004#40).extractLsb' 2 30 ≠ 0#30 := by decide
theorem witness_BadCommandResult : illegalEncoding 0x1000000100#40 ∧ bothFlags.errBadCmd = true :=
  ⟨.inr (.inr (.inr (.inr (by decide)))), rfl⟩
theorem witness_ControlIdempotent :
    exec (.clearErr true true) bothFlags = .next { State.reset with policy := .reject } ∧
    (withRoom 2).txq.length + 2 ≤ Config.txDepth := ⟨rfl, (withRoom_length 2 (by decide)).le⟩
theorem witness_StatusAfterReset : exec .reset bothFlags = .next State.reset := rfl
theorem witness_InvariantKept :
    State.reset.Wf ∧ step { State.reset with turns := [.once .resetSource] } = .next State.reset := by
  refine ⟨⟨by decide, by decide, by decide, by decide, ?_, ?_⟩, rfl⟩ <;> simp [State.reset]
theorem witness_EmptyExcludes : someRecord.Wf ∧ someRecord.empty = true :=
  ⟨⟨by decide, by decide, by decide, by decide, by decide⟩, by decide⟩
theorem witness_StickyFlagsWriters :
    exec (.illegal 0x1300000000#40) State.reset = .next { State.reset with errBadCmd := true } ∧
    exec (.txIntToken 1000#32) { State.reset with policy := .reject } =
      .next { State.reset with policy := .reject, errValueRange := true } ∧
    exec (.clearErr true true) bothFlags = .next { State.reset with policy := .reject } := ⟨rfl, rfl, rfl⟩
theorem witness_ConfigurationWriters : exec (.rxByte 0x40#8) State.reset = .next (headBranch State.reset) := rfl
theorem witness_FamiliesKeepApart :
    exec (.rxByte 0x40#8) State.reset = .next (headBranch State.reset) ∧
    exec .frmTake State.reset = .next State.reset ∧
    exec (decodeCmd 0x0200000001#40) State.reset = .next { State.reset with policy := .reject } ∧
    exec .txTake State.reset = .next State.reset ∧ exec .reset bothFlags = .next State.reset :=
  ⟨rfl, rfl, rfl, rfl, rfl⟩
theorem witness_DecoderIgnoresEncoder :
    SameDecoder State.reset { State.reset with policy := .reject, txq := [0x31#8] } ∧
    execAll ([0x40#8].map .rxByte) State.reset = .next (headBranch State.reset) :=
  ⟨⟨rfl, rfl, rfl, rfl, rfl, rfl⟩, rfl⟩

/-- A state with a command, an rx byte and turns for both, none of them a reset. -/
def busy : State :=
  { State.reset with cmdIn := [0x1000000041#40], rxIn := [0x40#8], turns := [.once .host, .once .rxSource, .once .txSink] }

theorem busy_run : Sys2Proof.core.run 1 busy = .next { busy with
    cmdIn := [], txq := [0x41#8], turns := [.once .rxSource, .once .txSink] } := rfl
theorem witness_TxStreamConserved : busy.noResetTurn := by
  unfold State.noResetTurn; decide
theorem witness_FrameStreamConserved : busy.keepsMarkers ∧ busy.framesFit = true := by
  refine ⟨?_, by decide⟩
  intro w hw h t
  obtain rfl : w = 0x1000000041#40 := by simpa [busy] using hw
  rw [show decodeCmd 0x1000000041#40 = .txByte 0x41#8 by decide]
  simp
theorem witness_AgreesWithSource :
    sourceFits Config.accCap 0x40#8 0x23#8 [] [0x40#8, 0x41#8, 0x23#8] = true ∧
    [0x40#8, 0x41#8, 0x23#8].length ≤
      [Turn.once .frameSink, .once .rxSource, .once .rxSource, .once .rxSource].count (.once .rxSource) ∧
    (sourcePackets 0x40#8 0x23#8 [] [0x40#8, 0x41#8, 0x23#8]).length ≤
      [Turn.once .frameSink, .once .rxSource, .once .rxSource, .once .rxSource].count (.once .frameSink) := by decide
theorem witness_NextPacketAgrees :
    sourceCall 0x40#8 0x23#8 [] [0x40#8, 0x41#8, 0x40#8, 0x42#8, 0x23#8, 0x44#8] = some ([0x42#8], [0x44#8]) ∧
    sourceCall 0x40#8 0x23#8 [] [0x40#8, 0x41#8] = none ∧ [0x42#8].length ≤ Config.accCap := by decide
theorem witness_EncIntArrayResult :
    State.reset.policy = .wide ∧ State.reset.txq.length +
      ([0x40#8] ++ [5#32].flatMap (fun v => tok (sint32 v)) ++ [0x23#8]).length ≤ Config.txDepth := by decide
theorem witness_EncIntArrayUnderReject :
    bothFlags.policy = .reject ∧ bothFlags.txq.length +
      ([0x40#8] ++ ([5#32, 1000#32].filter (fun v => !tooWide (sint32 v))).flatMap (fun v => tok (sint32 v))
        ++ [0x23#8]).length ≤ Config.txDepth := by decide
theorem witness_EncScalarIntResult :
    State.reset.txq.length + ([0x40#8] ++ be32 (u32 (-1)) ++ [0x23#8]).length ≤ Config.txDepth := by decide
theorem witness_AssembledWordsDecode :
    assemble (.word (.hex 0x7F00000000)) = .ok [.cmd 0x7F00000000#40] ∧
    decodeCmd 0x7F00000000#40 = .illegal 0x7F00000000#40 ∧
    (0 ≤ (Num.hex 255).value ∧ (Num.hex 255).value ≤ 255) ∧ 255 < (Num.dec 256).value ∧ (Num.dec (-1)).value < 0 ∧
    (Num.dec 3).value ≤ 3 ∧ 3 < (Num.dec 4).value ∧ (2 ^ 40 - 1 : Int) < (Num.hex 0x10000000000).value :=
  ⟨rfl, by decide⟩
theorem witness_TextRefusedWhole : (∃ c ∈ ['O', 'é'], 127 < c.toNat) ∧ (∀ c ∈ ['O', 'K'], c.toNat ≤ 127) := by
  simp

end Sys2Proof.Tests
end

section
/-! PROOFS. The family of spec/00_scope.md: R7's raw units, R9 and R12's helper functions, and R10 and R13's steps and
waits. -/

namespace Sys2Proof.Machine

/-! ### A step always answers a next state (R13) -/

/-- Every instruction answers a next state, enabled or not. -/
theorem exec_answers_next (i : Instr) (s : State) : ∃ t, exec i s = .next t := by
  rcases exec_cases i s with ⟨_, h⟩ | ⟨_, h⟩
  · exact ⟨_, h⟩
  · exact ⟨_, h⟩

/-- Settles O9: each of the three things a step can do answers a next state. -/
theorem everyStepGoesOn : Obligations.EveryStepGoesOn := by
  intro s
  rcases step_cases s with ⟨_, hold⟩ | ⟨_, _, _, _, _, _, drained⟩ | ⟨_, _, _, _, _, _, _, runs⟩
  · exact ⟨_, hold⟩
  · exact ⟨_, drained⟩
  · rw [runs]
    exact exec_answers_next _ _

/-! ### Decimal digits (R12) -/

/-- The digits of a number have its value. -/
theorem dec_foldl_value (m : Nat) : (dec m).foldl (fun n d => n * 10 + d) 0 = m := by
  induction m using dec_induction with
  | small m h => simp [dec_of_lt m h]
  | large m h ih =>
    rw [dec_of_ge m h, List.foldl_append, ih, List.foldl_cons, List.foldl_nil]
    omega

/-- A positive number has no leading zero. -/
theorem dec_head_ne_zero (m : Nat) (hm : 0 < m) : (dec m).head? ≠ some 0 := by
  induction m using dec_induction with
  | small m h => simp only [dec_of_lt m h, List.head?_cons, ne_eq, Option.some.injEq]; omega
  | large m h ih =>
    rw [dec_of_ge m h, List.head?_append_of_ne_nil _ (dec_ne_nil _)]
    exact ih (by omega)

/-- Settles O20, each clause by induction along the digits. -/
theorem decimalDigits : Obligations.DecimalDigits :=
  ⟨dec_of_lt 0 (by decide), fun m => ⟨dec_digit_lt m, dec_foldl_value m⟩, dec_head_ne_zero⟩

/-! ### Two's complement (R9) -/

/-- R9's residue mod 2^32 is the standard word of an integer. -/
theorem u32_eq_ofInt (v : Int) : u32 v = BitVec.ofInt 32 v := by
  apply BitVec.eq_of_toNat_eq
  have := u32_toNat v
  rw [BitVec.toNat_ofInt]
  omega

theorem u32_sint32 (x : Operand) : u32 (sint32 x) = x := by
  rw [u32_eq_ofInt, sint32_eq_toInt, BitVec.ofInt_toInt]

theorem sint32_u32 (v : Int) (hlo : -(2 ^ 31) ≤ v) (hhi : v < 2 ^ 31) : sint32 (u32 v) = v := by
  rw [u32_eq_ofInt, sint32_eq_toInt]
  exact BitVec.toInt_ofInt_eq_self (by decide) hlo hhi

/-- Settles O21: `sint32` and `u32` are the standard reading and writing of two's complement. -/
theorem twosComplement : Obligations.TwosComplement := by
  refine ⟨fun x => ?_, sint32_u32, fun v => ?_⟩
  · obtain ⟨hlo, hhi⟩ := sint32_range x
    exact ⟨hlo, hhi, u32_sint32 x⟩
  · unfold absNat
    split <;> omega

/-! ### Raw bits (R7, R46) -/

/-- What `decodeBits` accepts, on every port: the width of the unit, no bit above it, and for FSTAT no reserved bit. -/
theorem decodeBits_eq_ok {p : Port} {nbits w : Nat} {i : Instr} :
    decodeBits p nbits w = .ok i ↔ nbits = p.width ∧ w < 2 ^ p.width ∧
      (p = .frm → fstatReservedClear (BitVec.ofNat 32 w) = true) ∧ i = decode (unitOfBits p w) := by
  unfold decodeBits
  by_cases hn : nbits = p.width
  · by_cases hw : w < 2 ^ p.width
    · rw [if_neg (not_not.2 hn), if_neg (Nat.not_le.2 hw)]
      by_cases hf : p = .frm ∧ fstatReservedClear (BitVec.ofNat 32 w) = false
      · simp [hf.1, hf.2]
      · rw [if_neg hf, Except.ok.injEq, @eq_comm _ (decode _)]
        simp only [not_and, Bool.not_eq_false] at hf
        simp only [hn, hw, true_and]
        exact (and_iff_right hf).symm
    · simp [hn, Nat.not_lt.1 hw, hw]
  · simp [hn]

/-- Bits 31:20 of a 32-bit word are 0 exactly when the word is below 2^20 (R68). -/
theorem fstatReservedClear_ofNat {w : Nat} (hw : w < 2 ^ 32) :
    fstatReservedClear (BitVec.ofNat 32 w) = true ↔ w < 2 ^ 20 := by
  rw [fstatReservedClear, beq_iff_eq, ← BitVec.toNat_inj, BitVec.extractLsb'_toNat, BitVec.toNat_ofNat,
    Nat.shiftRight_eq_div_pow]
  simp only [BitVec.toNat_ofNat]
  omega

/-- Settles O5: `decodeBits_eq_ok` at each of the five ports, with FSTAT's reserved bits as a bound on the word. -/
theorem rawBitsRejected : Obligations.RawBitsRejected := by
  intro nbits w i
  refine ⟨decodeBits_eq_ok.trans ?cmd, decodeBits_eq_ok.trans ?rx, decodeBits_eq_ok.trans ?tx,
    decodeBits_eq_ok.trans ?frm, decodeBits_eq_ok.trans ?rst⟩
  case frm =>
    constructor
    · rintro ⟨hn, hw, hf, hi⟩
      exact ⟨hn, (fstatReservedClear_ofNat hw).1 (hf rfl), hi⟩
    · rintro ⟨hn, hw, hi⟩
      have hw32 : w < 2 ^ 32 := by omega
      exact ⟨hn, hw32, fun _ => (fstatReservedClear_ofNat hw32).2 hw, hi⟩
  all_goals simp [Port.width, unitOfBits, decode]

/-! ### Which instruction a step runs (R10, R181) -/

/-- A unit on the agent's port whose step is enabled is what the agent runs. -/
theorem readyInstr_of_enabled {s : State} {a : Agent} {u : PortUnit} (hu : s.unitFor a = some u)
    (he : enabled (decode u) s = true) : s.readyInstr a = some (decode u) := by
  simp [State.readyInstr, hu, he]

/-- Settles O6: the unit's instruction is ready, so the first turn that need not wait runs it. -/
theorem stepRunsDecoded : Obligations.StepRunsDecoded := by
  intro s a pre post u ht hpre hu he
  exact step_of_ready ht hpre (readyInstr_of_enabled hu he)

/-! ### When a turn must wait (R10, R13) -/

/-- Where every turn due must wait the block holds its state (R182). -/
theorem step_of_allWait {s : State} (h : s.allWait [] s.turns) : step s = .next s := by
  have hn := nextMove_append s.turns [] [] h
  rw [List.append_nil] at hn
  simp [step, hn, State.nextMove]

/-- One step of an agent must wait exactly when an earlier turn of the agent waits or no enabled unit is on its port. -/
theorem mustWait_once (s : State) (w : List Agent) (a : Agent) :
    s.mustWait w (.once a) ↔ a ∈ w ∨ ∀ u, s.unitFor a = some u → enabled (decode u) s = false := by
  simp [State.mustWait, turnAgent]

/-- A drain waits only behind a turn of the tx sink. -/
theorem mustWait_drain (s : State) (w : List Agent) : s.mustWait w .drain ↔ .txSink ∈ w := by
  simp [State.mustWait, turnAgent]

/-- The tx sink has nothing to take from an empty TXQ (R98). -/
theorem readyInstr_txSink_of_empty {s : State} (hq : s.txq = []) : s.readyInstr .txSink = none := by
  simp [State.readyInstr, State.unitFor, hq]

/-- A drain behind a waiting turn of the tx sink stays due, with that turn, whatever moves. -/
theorem drain_stays_behind_txSink {s t : State} {rest : List Turn} (hq : s.txq = [])
    (ht : s.turns = .once .txSink :: .drain :: rest) (h : step s = .next t) :
    ∃ rest', t.turns = .once .txSink :: .drain :: rest' := by
  have hsink : s.mustWait [] (.once .txSink) :=
    (mustWait_once ..).2 (.inr (readyInstr_eq_none.1 (readyInstr_txSink_of_empty hq)))
  have hdrain : s.mustWait [.txSink] .drain := (mustWait_drain ..).2 (by simp)
  exact waiting_front_stays (pre := [.once .txSink, .drain]) ⟨hsink, hdrain, trivial⟩ ht h

/-- Settles O8: the turns that wait are passed over, and each agent's wait is read off the unit on its port. -/
theorem stepWaits : Obligations.StepWaits := by
  refine ⟨fun s => step_of_allWait, ?_, fun s t rest => drain_stays_behind_txSink, fun s w => ?_⟩
  · intro s pre post hpre hno ht hq
    refine step_of_drained ht hpre (fun x hx => ?_) (readyInstr_txSink_of_empty hq)
    obtain ⟨honce, hdrain⟩ := hno x hx
    cases x with
    | once a => simpa [turnAgent] using honce
    | drain => exact absurd rfl hdrain
  · refine ⟨?host, ?rxSource, ?frameSink, ?txSink, ?resetSource, mustWait_drain s w⟩
    case host => simp [mustWait_once, State.unitFor, decode]
    case rxSource =>
      cases hr : s.rxIn <;>
        simp [mustWait_once, State.unitFor, decode, enabled, State.rxReady, Option.isSome_iff_ne_none, hr]
    case frameSink =>
      cases hf : s.frm <;> simp [mustWait_once, State.unitFor, decode, enabled, hf]
    case txSink =>
      cases hq : s.txq <;> simp [mustWait_once, State.unitFor, decode, enabled, hq]
    case resetSource => simp [mustWait_once, State.unitFor, decode, enabled]

end Sys2Proof.Machine
end

section
/-! PROOFS. The family of spec/10_state.md: the layout of STATUS (R33, R34), the writers of the configuration and of the
sticky flags (R20 to R22, R28, R29), and the invariants of R32. -/

namespace Sys2Proof.Machine

/-- The state an instruction leaves: the state as it was, or the effect of the enabled instruction. -/
theorem exec_next_cases {i : Instr} {s t : State} (h : exec i s = .next t) :
    t = s ∨ (enabled i s = true ∧ t = effectOf i s) := by
  rcases exec_cases i s with ⟨he, e⟩ | ⟨_, e⟩ <;> rw [e] at h <;> cases h
  · exact .inr ⟨he, rfl⟩
  · exact .inl rfl

/-! ### The invariants of R32 -/

theorem accCap_pos : 0 < Config.accCap := Nat.succ_pos _

/-- ACC_CAP is a 16-bit number (R5). -/
theorem accCap_lt : Config.accCap < 2 ^ 16 := by
  have := Config.accCapLessOne.isLt
  unfold Config.accCap
  omega

/-- The record latched at a tail is well formed: LEN cuts nothing off, and OVERFLOW is ACC_OVF (R125). -/
theorem mkframe_wf {s : State} (h : s.Wf) : (mkframe s).Wf where
  payload_fits := h.acc_fits
  len_eq := by
    have := h.acc_fits
    have := accCap_lt
    rw [mkframe, BitVec.toNat_ofNat]
    exact Nat.mod_eq_of_lt (by omega)
  empty_eq := rfl
  nonascii_eq := rfl
  overflow_full := h.ovf_full

theorem setTurns_wf {s : State} (ts : List Turn) (h : s.Wf) : (setTurns ts s).Wf := { h with }

theorem takeOffer_wf {s : State} (a : Agent) (h : s.Wf) : (takeOffer a s).Wf := by
  cases a <;> exact { h with }

theorem emitTx_wf {s : State} {l : List Byte} (h : s.Wf) (hroom : roomFor l.length s = true) : (emitTx l s).Wf :=
  { h with txq_fits := by simpa using hroom }

theorem headBranch_wf {s : State} (h : s.Wf) (hf : s.frm = none) : (headBranch s).Wf :=
  { h with
    acc_fits := Nat.zero_le _
    ovf_full := by simp
    pending_clear := fun hp => absurd hf hp }

theorem tailBranch_wf {s : State} (h : s.Wf) : (tailBranch s).Wf :=
  { h with
    acc_fits := Nat.zero_le _
    ovf_full := by simp
    pending_clear := fun _ => ⟨rfl, rfl, rfl⟩
    frm_wf := fun r hr => by
      obtain rfl : mkframe s = r := by simpa using hr
      exact mkframe_wf h }

/-- A kept byte needs room, so ACC_OVF is clear; a dropped byte finds ACC full (R124). -/
theorem payloadBranch_wf {s : State} (b : Byte) (h : s.Wf) (hf : s.frm = none) :
    (payloadBranch Config.accCap b s).Wf := by
  rcases payloadBranch_cases Config.accCap b s with ⟨hroom, e⟩ | ⟨hfull, e⟩ <;> rw [e]
  · exact { h with
      acc_fits := by simpa using hroom
      ovf_full := fun ho => absurd (h.ovf_full ho) hroom.ne
      pending_clear := fun hp => absurd hf hp }
  · exact { h with
      ovf_full := fun _ => le_antisymm h.acc_fits hfull
      pending_clear := fun hp => absurd hf hp }

theorem rxBranch_wf {s : State} (b : Byte) (h : s.Wf) (hf : s.frm = none) : (rxBranch Config.accCap b s).Wf := by
  rcases rxBranch_cases Config.accCap b s with ⟨_, e⟩ | ⟨_, _, e⟩ | ⟨_, _, e⟩ <;> rw [e]
  · exact headBranch_wf h hf
  · exact tailBranch_wf h
  · exact payloadBranch_wf b h hf

/-- The record in FRM moves to the records delivered (R126). -/
theorem clearFrm_deliverFrm_wf {s : State} {r : FrameRecord} (h : s.Wf) (hr : s.frm = some r) :
    (clearFrm (deliverFrm r s)).Wf :=
  { h with
    pending_clear := fun hp => absurd rfl hp
    frm_wf := by simp
    out_wf := fun x hx => by
      rcases List.mem_append.1 hx with hx | hx
      · exact h.out_wf x hx
      · obtain rfl := List.mem_singleton.1 hx
        exact h.frm_wf x hr }

theorem deliverTx_setTxq_wf {s : State} {b : Byte} {rest : List Byte} (h : s.Wf) (hq : s.txq = b :: rest) :
    (deliverTx b (setTxq rest s)).Wf :=
  { h with
    txq_fits := by
      have := h.txq_fits
      rw [hq, List.length_cons] at this
      exact Nat.le_of_succ_le this }

theorem resetBlock_wf {s : State} (h : s.Wf) : (resetBlock s).Wf :=
  { h with
    acc_fits := Nat.zero_le _
    txq_fits := Nat.zero_le _
    ovf_full := by simp
    pending_clear := fun hp => absurd rfl hp
    frm_wf := by simp }

/-- Every enabled instruction keeps the invariants of R32. -/
theorem effectOf_wf {i : Instr} {s : State} (he : enabled i s = true) (h : s.Wf) : (effectOf i s).Wf := by
  cases i with
  | txByte d => exact emitTx_wf h he
  | txInt32 v => exact emitTx_wf h he
  | txIntToken v =>
    cases hr : refusesValue v s.policy with
    | true => simpa [effectOf, hr] using ({ h with } : (raiseValueOutOfRange s).Wf)
    | false => simpa [effectOf, hr] using emitTx_wf h (by simpa [enabled, nbytes, hr] using he)
  | rxByte b => exact rxBranch_wf b h ((rxReady_eq_true s).1 he)
  | frmTake =>
    obtain ⟨r, hr⟩ := Option.isSome_iff_exists.1 he
    simpa [effectOf, hr] using clearFrm_deliverFrm_wf h hr
  | txTake =>
    cases hq : s.txq with
    | nil => simp [enabled, hq] at he
    | cons b rest => simpa [effectOf, hq] using deliverTx_setTxq_wf h hq
  | reset => exact resetBlock_wf h
  | nop | setMarkers | setPolicy | clearErr | illegal => exact { h with }

/-- Settles O46: a step holds the state, ends a drain, or runs an enabled instruction once its offer is taken. -/
theorem invariantKept : Obligations.InvariantKept := by
  intro s t h hstep
  rcases step_next_cases hstep with rfl | ⟨ts, _, rfl⟩ | ⟨ts, x, i, _, _, hi, rfl⟩
  · exact h
  · exact setTurns_wf ts h
  · refine effectOf_wf ?_ (takeOffer_wf _ (setTurns_wf ts h))
    rw [enabled_takeOffer]
    exact (readyInstr_shape hi).1

/-- Settles O45: after reset ACC, TXQ and FRM are empty and nothing is delivered. -/
theorem invariantAtReset : Obligations.InvariantAtReset where
  acc_fits := Nat.zero_le _
  txq_fits := Nat.zero_le _
  ovf_full := by simp [State.reset]
  pending_clear := fun hp => absurd rfl hp
  frm_wf := by simp [State.reset]
  out_wf := by simp [State.reset]

/-- Settles O47: an empty payload has no byte above 0x7F, and is not a full one because ACC_CAP is positive. -/
theorem emptyExcludes : Obligations.EmptyExcludes := by
  intro r h he
  have hp : r.payload = [] := by simpa [h.empty_eq] using he
  refine ⟨by simp [h.nonascii_eq, hp, nonasciiOf], ?_⟩
  rw [Bool.eq_false_iff]
  intro ho
  have hfull := h.overflow_full ho
  rw [hp, List.length_nil] at hfull
  exact accCap_pos.ne hfull

/-! ### The writers of the configuration and of the sticky flags -/

/-- The configuration (R20 to R22) and the sticky flags (R28, R29). -/
structure ControlRegs where
  head : Byte
  tail : Byte
  policy : Policy
  errBadCmd : Bool
  errValueRange : Bool

/-- The configuration and the sticky flags of a state. -/
def State.controlRegs (s : State) : ControlRegs := ⟨s.head, s.tail, s.policy, s.errBadCmd, s.errValueRange⟩

/-- What each instruction writes of the configuration and the sticky flags (R51). -/
theorem effectOf_controlRegs (i : Instr) (s : State) :
    (effectOf i s).controlRegs =
      match i with
      | .setMarkers hd tl => { s.controlRegs with head := hd, tail := tl }
      | .setPolicy p => { s.controlRegs with policy := p }
      | .clearErr cv cb =>
        { s.controlRegs with errBadCmd := s.errBadCmd && !cb, errValueRange := s.errValueRange && !cv }
      | .illegal _ => { s.controlRegs with errBadCmd := true }
      | .txIntToken v => { s.controlRegs with errValueRange := s.errValueRange || refusesValue v s.policy }
      | .reset => State.reset.controlRegs
      | _ => s.controlRegs := by
  cases i with
  | txIntToken v => cases hr : refusesValue v s.policy <;> simp [effectOf, hr, State.controlRegs]
  | rxByte b => simp [effectOf, State.controlRegs]
  | frmTake => cases hf : s.frm <;> simp [effectOf, hf, State.controlRegs]
  | txTake => cases hq : s.txq <;> simp [effectOf, hq, State.controlRegs]
  | _ => rfl

theorem effectOf_markers {i : Instr} (s : State) (hm : ∀ h l, i ≠ .setMarkers h l) (hr : i ≠ .reset) :
    (effectOf i s).head = s.head ∧ (effectOf i s).tail = s.tail := by
  have e := effectOf_controlRegs i s
  cases i with
  | setMarkers h l => exact absurd rfl (hm h l)
  | reset => exact absurd rfl hr
  | _ => exact ⟨congrArg ControlRegs.head e, congrArg ControlRegs.tail e⟩

theorem effectOf_policy {i : Instr} (s : State) (hp : ∀ p, i ≠ .setPolicy p) (hr : i ≠ .reset) :
    (effectOf i s).policy = s.policy := by
  have e := effectOf_controlRegs i s
  cases i with
  | setPolicy p => exact absurd rfl (hp p)
  | reset => exact absurd rfl hr
  | _ => exact congrArg ControlRegs.policy e

theorem effectOf_errBadCmd (i : Instr) (s : State) :
    (effectOf i s).errBadCmd =
      match i with
      | .clearErr _ cb => s.errBadCmd && !cb
      | .illegal _ => true
      | .reset => false
      | _ => s.errBadCmd := by
  have e := congrArg ControlRegs.errBadCmd (effectOf_controlRegs i s)
  cases i <;> exact e

theorem effectOf_errValueRange (i : Instr) (s : State) :
    (effectOf i s).errValueRange =
      match i with
      | .clearErr cv _ => s.errValueRange && !cv
      | .txIntToken v => s.errValueRange || refusesValue v s.policy
      | .reset => false
      | _ => s.errValueRange := by
  have e := congrArg ControlRegs.errValueRange (effectOf_controlRegs i s)
  cases i <;> exact e

/-- TX_INT_TOKEN refuses exactly the values of magnitude 1000 and more under REJECT (R94). -/
theorem refusesValue_eq_true (v : Operand) (p : Policy) :
    refusesValue v p = true ↔ p = .reject ∧ 1000 ≤ (sint32 v).natAbs := by
  simp [refusesValue, tooWide]

/-- Settles O49: a step that waits writes nothing, and an enabled one writes a register only by its own command. -/
theorem configurationWriters : Obligations.ConfigurationWriters := by
  intro i s t h hr
  rcases exec_next_cases h with rfl | ⟨_, rfl⟩
  · exact ⟨fun _ => ⟨rfl, rfl⟩, fun _ => rfl⟩
  · exact ⟨fun hm => effectOf_markers s hm hr, fun hp => effectOf_policy s hp hr⟩

/-- Settles O48: each clause by the instructions that write its flag. -/
theorem stickyFlagsWriters : Obligations.StickyFlagsWriters := by
  intro i s t h
  rcases exec_next_cases h with rfl | ⟨_, rfl⟩
  · simp +contextual
  · rw [effectOf_errBadCmd, effectOf_errValueRange]
    refine ⟨fun hs ht => ?_, fun hs ht => ?_, fun hs ht => ?_, fun hs ht => ?_⟩
    · cases i with
      | illegal w => exact ⟨w, rfl⟩
      | _ => simp [hs] at ht
    · cases i with
      | reset => exact .inl rfl
      | clearErr cv cb =>
        obtain rfl : cb = true := by simpa [hs] using ht
        exact .inr ⟨cv, rfl⟩
      | _ => simp [hs] at ht
    · cases i with
      | txIntToken v => exact ⟨v, rfl, (refusesValue_eq_true v s.policy).1 (by simpa [hs] using ht)⟩
      | _ => simp [hs] at ht
    · cases i with
      | reset => exact .inl rfl
      | clearErr cv cb =>
        obtain rfl : cv = true := by simpa [hs] using ht
        exact .inr ⟨cb, rfl⟩
      | _ => simp [hs] at ht

/-! ### STATUS (R33, R34) -/

/-! A one-bit field appended at the low end is bit 0; every other bit moves up by one place. -/

theorem getLsbD_zero_append_bitField {n : Nat} (v : BitVec n) (b : Bool) : (v ++ bitField b).getLsbD 0 = b := by
  rw [BitVec.getLsbD_append, bitField]
  cases b <;> rfl

theorem getLsbD_succ_append_bitField {n : Nat} (v : BitVec n) (b : Bool) (i : Nat) :
    (v ++ bitField b).getLsbD (i + 1) = v.getLsbD i := by
  simp [BitVec.getLsbD_append]

theorem extractLsb'_succ_append_bitField {n : Nat} (v : BitVec n) (b : Bool) (i k : Nat) :
    (v ++ bitField b).extractLsb' (i + 1) k = v.extractLsb' i k :=
  BitVec.extractLsb'_append_eq_of_le (Nat.le_add_left 1 i)

/-- The bit of a policy is 1 for REJECT (R22). -/
theorem bit_eq_decide_reject (p : Policy) : p.bit = decide (p = .reject) := by
  cases p <;> rfl

theorem not_isEmpty_eq_decide_length_pos {α : Type} (l : List α) : (!l.isEmpty) = decide (0 < l.length) := by
  cases l <;> rfl

/-- Settles O42: the eight flags are read off one by one from the low end, then the three bytes above them. -/
theorem statusLayout : Obligations.StatusLayout := by
  intro s
  simp only [State.status, State.rxReady, getLsbD_zero_append_bitField, getLsbD_succ_append_bitField,
    extractLsb'_succ_append_bitField, not_isEmpty_eq_decide_length_pos, bit_eq_decide_reject, true_and]
  refine ⟨BitVec.extractLsb'_append_eq_right, ?head, ?tail⟩
  case head => rw [BitVec.extractLsb'_append_eq_of_le (by decide), BitVec.extractLsb'_append_eq_right]
  case tail => rw [BitVec.extractLsb'_append_eq_of_le (by decide), BitVec.extractLsb'_append_eq_left]

/-- STATUS after a reset event is STATUS at power-on, whatever is offered and delivered (R190, R191). -/
theorem status_resetBlock (s : State) : (resetBlock s).status = State.reset.status := rfl

/-- Settles O43: a reset event leaves STATUS as it is at power-on. -/
theorem statusAfterReset : Obligations.StatusAfterReset := by
  have hreset : State.reset.status = 0x23400002#32 := by decide
  refine ⟨hreset, fun s t h => ?_⟩
  cases h
  rw [status_resetBlock, hreset]

end Sys2Proof.Machine
end

section
/-! PROOFS. The family of spec/20_memory.md: what a step takes off the ports (R49), which commands may be repeated
(R48), and which part of the state each family of instructions leaves alone (R51). -/

namespace Sys2Proof.Machine

/-! ### What a step takes off the ports (R49) -/

theorem takeOffer_host_of_cons {s : State} {w : CmdWord} {ws : List CmdWord} (h : s.cmdIn = w :: ws) :
    takeOffer .host s = { s with cmdIn := ws } := by
  simp [takeOffer, h]

theorem takeOffer_rxSource_of_cons {s : State} {b : Byte} {bs : List Byte} (h : s.rxIn = b :: bs) :
    takeOffer .rxSource s = { s with rxIn := bs } := by
  simp [takeOffer, h]

/-- The tx sink is ready to take the first byte of TXQ (R98). -/
theorem readyInstr_txSink_of_cons {s : State} {b : Byte} {q : List Byte} (h : s.txq = b :: q) :
    s.readyInstr .txSink = some .txTake := by
  simp [State.readyInstr, State.unitFor, decode, enabled, h]

/-- The turns left by a drain that takes a byte are the turns there were (R73). -/
theorem setTurns_of_eq {s : State} {ts : List Turn} (h : s.turns = ts) : setTurns ts s = s := by
  subst h; rfl

/-- Settles O7: each agent's unit is read off the state and run by `stepRunsDecoded`; a drain has the tx sink's
instruction ready, and its turn is left. -/
theorem stepTakesOffer : Obligations.StepTakesOffer := by
  intro s pre post hpre
  refine ⟨?host, ?rxSource, ?frameSink, ?txSink, ?resetSource, ?drain⟩
  case host =>
    intro w ws ht hc he
    exact (stepRunsDecoded s .host pre post (.cmd w) ht hpre (by simp [State.unitFor, hc]) he).trans
      (congrArg (exec (decodeCmd w)) (takeOffer_host_of_cons hc))
  case rxSource =>
    intro b bs ht hr hf
    exact (stepRunsDecoded s .rxSource pre post (.rx b) ht hpre (by simp [State.unitFor, hr])
      ((rxReady_eq_true s).2 hf)).trans (congrArg (exec (.rxByte b)) (takeOffer_rxSource_of_cons hr))
  case frameSink =>
    intro r ht hf
    exact stepRunsDecoded s .frameSink pre post (.frm r.fstat) ht hpre (by simp [State.unitFor, hf])
      (by simp [decode, enabled, hf])
  case txSink =>
    intro b q ht hq
    exact step_of_ready ht hpre (readyInstr_txSink_of_cons hq)
  case resetSource =>
    intro ht
    exact stepRunsDecoded s .resetSource pre post .rst ht hpre rfl rfl
  case drain =>
    intro b q ht hq
    rw [step_of_ready ht hpre (readyInstr_txSink_of_cons hq)]
    exact congrArg (exec .txTake) (setTurns_of_eq ht)

/-! ### Which commands may be repeated (R48) -/

/-- Clearing the same flags twice clears them once (R153). -/
theorem clearErrFlags_idem (cv cb : Bool) (s : State) :
    clearErrFlags cv cb (clearErrFlags cv cb s) = clearErrFlags cv cb s := by
  simp [clearErrFlags]

/-- An enabled instruction at the front runs, and those behind it run on what it leaves. -/
theorem execAll_cons_of_enabled {i : Instr} {s : State} (is : List Instr) (h : enabled i s = true) :
    execAll (i :: is) s = execAll is (effectOf i s) := by
  simp only [execAll, exec_of_enabled i s h]

/-- Settles O41: a control command writes values that do not change when it is repeated, where TX_BYTE appends. -/
theorem controlIdempotent : Obligations.ControlIdempotent := by
  constructor
  · rintro i s t (rfl | ⟨hd, tl, rfl⟩ | ⟨p, rfl⟩ | ⟨cv, cb, rfl⟩) h <;> cases h
    · rfl
    · rfl
    · rfl
    · exact congrArg Host.Outcome.next (clearErrFlags_idem cv cb s)
  · intro d s hroom
    have hfirst : enabled (.txByte d) s = true := (roomFor_eq_true 1 s).2 (by omega)
    have hsecond : enabled (.txByte d) (emitTx [d] s) = true := by
      refine (roomFor_eq_true 1 _).2 ?_
      rw [emitTx_txq, List.length_append, List.length_singleton]
      omega
    rw [execAll_cons_of_enabled _ hfirst, effectOf, execAll_cons_of_enabled _ hsecond, effectOf, execAll]
    simp [emitTx]

/-! ### What each family leaves alone (R51) -/

/-- A command word is the host's instruction (R181). -/
theorem decodeCmd_agent (w : CmdWord) : (decodeCmd w).agent = .host := by
  simp only [decodeCmd]
  split_ifs <;> rfl

/-- frm.take waits, or delivers the record in FRM and empties FRM (R126). -/
theorem frmTake_next_cases {s t : State} (h : exec .frmTake s = .next t) :
    t = s ∨ ∃ r, s.frm = some r ∧ t = clearFrm (deliverFrm r s) := by
  rcases exec_next_cases h with rfl | ⟨he, rfl⟩
  · exact .inl rfl
  · obtain ⟨r, hr⟩ := Option.isSome_iff_exists.1 he
    exact .inr ⟨r, hr, by simp [effectOf, hr]⟩

/-- tx.take waits, or delivers the first byte of TXQ and leaves the rest (R98). -/
theorem txTake_next_cases {s t : State} (h : exec .txTake s = .next t) :
    t = s ∨ ∃ b q, s.txq = b :: q ∧ t = deliverTx b (setTxq q s) := by
  rcases exec_next_cases h with rfl | ⟨he, rfl⟩
  · exact .inl rfl
  · cases hq : s.txq with
    | nil => simp [enabled, hq] at he
    | cons b q => exact .inr ⟨b, q, rfl, by simp [effectOf, hq]⟩

/-- Only the sinks' steps deliver, and no instruction takes an offer or a turn. -/
theorem effectOf_sameAgents {i : Instr} (s : State) (hfrm : i.agent ≠ .frameSink) (htx : i.agent ≠ .txSink) :
    SameAgents s (effectOf i s) := by
  cases i with
  | txIntToken v => cases hr : refusesValue v s.policy <;> constructor <;> simp [effectOf, hr]
  | rxByte b => constructor <;> simp [effectOf]
  | frmTake => exact absurd rfl hfrm
  | txTake => exact absurd rfl htx
  | _ => exact ⟨rfl, rfl, rfl, rfl, rfl⟩

theorem exec_sameAgents {i : Instr} {s t : State} (h : exec i s = .next t) (hfrm : i.agent ≠ .frameSink)
    (htx : i.agent ≠ .txSink) : SameAgents s t := by
  rcases exec_next_cases h with rfl | ⟨_, rfl⟩
  · exact ⟨rfl, rfl, rfl, rfl, rfl⟩
  · exact effectOf_sameAgents s hfrm htx

/-- The decoder leaves the configuration and the encoder alone (R136). -/
theorem exec_rxByte_sameConfigAndEncoder {b : Byte} {s t : State} (h : exec (.rxByte b) s = .next t) :
    SameConfigAndEncoder s t := by
  rcases exec_next_cases h with rfl | ⟨_, rfl⟩
  · exact ⟨rfl, rfl, rfl, rfl, rfl, rfl⟩
  · constructor <;> simp [effectOf]

/-- A command leaves the decoder's own elements alone (R101, R155). -/
theorem exec_host_decoder {i : Instr} {s t : State} (hi : i.agent = .host) (h : exec i s = .next t) :
    t.acc = s.acc ∧ t.accOvf = s.accOvf ∧ t.headSeen = s.headSeen ∧ t.frm = s.frm := by
  rcases exec_next_cases h with rfl | ⟨_, rfl⟩
  · exact ⟨rfl, rfl, rfl, rfl⟩
  · cases i with
    | txIntToken v => cases hr : refusesValue v s.policy <;> simp [effectOf, hr]
    | rxByte | frmTake | txTake | reset => cases hi
    | _ => exact ⟨rfl, rfl, rfl, rfl⟩

/-- Settles O50, one clause per row of R51; a step that waits leaves everything. -/
theorem familiesKeepApart : Obligations.FamiliesKeepApart := by
  refine ⟨?rxByte, ?frmTake, ?command, ?txTake, ?reset⟩
  case rxByte => exact fun s t b h => ⟨exec_rxByte_sameConfigAndEncoder h, exec_sameAgents h nofun nofun⟩
  case frmTake =>
    intro s t h
    rcases frmTake_next_cases h with rfl | ⟨r, _, rfl⟩ <;>
      exact ⟨⟨rfl, rfl, rfl, rfl, rfl, rfl⟩, rfl, rfl, rfl, rfl, rfl, rfl, rfl⟩
  case command =>
    intro w s t h
    have hagent := decodeCmd_agent w
    obtain ⟨hacc, hovf, hseen, hfrm⟩ := exec_host_decoder hagent h
    exact ⟨hacc, hovf, hseen, hfrm, exec_sameAgents h (by simp [hagent]) (by simp [hagent])⟩
  case txTake =>
    intro s t h
    rcases txTake_next_cases h with rfl | ⟨b, q, _, rfl⟩ <;>
      exact ⟨⟨rfl, rfl, rfl, rfl, rfl, rfl⟩, rfl, rfl, rfl, rfl, rfl, rfl, rfl⟩
  case reset => exact fun s t h => exec_sameAgents h nofun nofun

end Sys2Proof.Machine
end

section
/-! PROOFS. The family of spec/30_encoding.md: the opcode map read and written (R62 to R66), FSTAT (R68), and a unit
placed where the next step takes it. -/

namespace Sys2Proof

open Machine

/-! ### The reading of each row of the opcode map (R62, R64) -/

@[simp] theorem decodeCmd_nopWord (d : Operand) : decodeCmd (cmdWord 0x00#8 d) = .nop := by
  simp [decodeCmd]

@[simp] theorem decodeCmd_setMarkersWord (h t : Byte) :
    decodeCmd (cmdWord 0x01#8 (0#16 ++ t ++ h)) = .setMarkers h t := by
  simp [decodeCmd]

@[simp] theorem policy_reserved (b : Bool) : (0#31 ++ bitField b : Operand).extractLsb' 1 31 = 0#31 :=
  BitVec.extractLsb'_append_eq_left

@[simp] theorem errFlags_reserved (cv cb : Bool) :
    (0#30 ++ bitField cv ++ bitField cb : Operand).extractLsb' 2 30 = 0#30 := by
  rw [extractLsb'_succ_append_bitField]
  exact BitVec.extractLsb'_append_eq_left

@[simp] theorem decodeCmd_setPolicyWord (p : Policy) :
    decodeCmd (cmdWord 0x02#8 (0#31 ++ bitField p.bit)) = .setPolicy p := by
  simp only [decodeCmd, opcOf_cmdWord, opdOf_cmdWord, policy_reserved, getLsbD_zero_append_bitField, policyOfBit_bit]
  rfl

@[simp] theorem decodeCmd_clearErrWord (cv cb : Bool) :
    decodeCmd (cmdWord 0x03#8 (0#30 ++ bitField cv ++ bitField cb)) = .clearErr cv cb := by
  simp only [decodeCmd, opcOf_cmdWord, opdOf_cmdWord, errFlags_reserved, getLsbD_zero_append_bitField,
    getLsbD_succ_append_bitField]
  rfl

@[simp] theorem decodeCmd_txByteWord (d : Byte) : decodeCmd (cmdWord 0x10#8 (0#24 ++ d)) = .txByte d := by
  simp [decodeCmd]

@[simp] theorem decodeCmd_txIntTokenWord (v : Operand) : decodeCmd (cmdWord 0x11#8 v) = .txIntToken v := by
  simp [decodeCmd]

@[simp] theorem decodeCmd_txInt32Word (v : Operand) : decodeCmd (cmdWord 0x12#8 v) = .txInt32 v := by
  simp [decodeCmd]

/-- A word of no row is BadCommand: each branch of R64 that answers another command would put it in a row. -/
theorem decodeCmd_of_undefined {w : CmdWord} (h : definedWord w = false) : decodeCmd w = .illegal w := by
  rw [← Bool.not_eq_true, definedWord_iff] at h
  simp only [decodeCmd]
  split_ifs <;> simp_all

/-! ### Every word is of one row, with the operands of that row, or of none -/

/-- A one-bit field read out of a word. -/
theorem bitField_getLsbD {n : Nat} (v : BitVec n) (i : Nat) : bitField (v.getLsbD i) = v.extractLsb' i 1 := by
  apply BitVec.eq_of_getLsbD_eq
  intro j hj
  obtain rfl : j = 0 := by omega
  simp [bitField]

/-- A field and the bit below it, put together, are the field one bit longer. -/
theorem extractLsb'_append_bitField {n : Nat} (v : BitVec n) (i k : Nat) :
    v.extractLsb' (i + 1) k ++ bitField (v.getLsbD i) = v.extractLsb' i (k + 1) := by
  rw [bitField_getLsbD]
  exact BitVec.extractLsb'_append_extractLsb'_eq_extractLsb' rfl

theorem markers_rebuild {d : Operand} (h : d.extractLsb' 16 16 = 0#16) :
    0#16 ++ d.extractLsb' 8 8 ++ d.extractLsb' 0 8 = d := by
  rw [← h, BitVec.extractLsb'_append_extractLsb'_eq_extractLsb' (show 16 = 8 + 8 from rfl),
    BitVec.extractLsb'_append_extractLsb'_eq_extractLsb' (show 8 = 0 + 8 from rfl)]
  exact BitVec.extractLsb'_eq_self

theorem policy_rebuild {d : Operand} (h : d.extractLsb' 1 31 = 0#31) : 0#31 ++ bitField (d.getLsbD 0) = d := by
  rw [← h, extractLsb'_append_bitField]
  exact BitVec.extractLsb'_eq_self

theorem errFlags_rebuild {d : Operand} (h : d.extractLsb' 2 30 = 0#30) :
    0#30 ++ bitField (d.getLsbD 1) ++ bitField (d.getLsbD 0) = d := by
  rw [← h, extractLsb'_append_bitField, extractLsb'_append_bitField]
  exact BitVec.extractLsb'_eq_self

theorem byte_rebuild {d : Operand} (h : d.extractLsb' 8 24 = 0#24) : 0#24 ++ d.extractLsb' 0 8 = d := by
  rw [← h, BitVec.extractLsb'_append_extractLsb'_eq_extractLsb' (show 8 = 0 + 8 from rfl)]
  exact BitVec.extractLsb'_eq_self

/-- The eight outcomes of R64 as shapes of a word: a row's opcode with the fields R62 gives it, or a word of no row. -/
inductive CmdShape : CmdWord → Prop where
  | nop (d : Operand) : CmdShape (cmdWord 0x00#8 d)
  | setMarkers (h t : Byte) : CmdShape (cmdWord 0x01#8 (0#16 ++ t ++ h))
  | setPolicy (p : Policy) : CmdShape (cmdWord 0x02#8 (0#31 ++ bitField p.bit))
  | clearErr (cv cb : Bool) : CmdShape (cmdWord 0x03#8 (0#30 ++ bitField cv ++ bitField cb))
  | txByte (d : Byte) : CmdShape (cmdWord 0x10#8 (0#24 ++ d))
  | txIntToken (v : Operand) : CmdShape (cmdWord 0x11#8 v)
  | txInt32 (v : Operand) : CmdShape (cmdWord 0x12#8 v)
  | undefined (w : CmdWord) (h : definedWord w = false) : CmdShape w

/-- Every word has one of the eight shapes. -/
theorem cmdShape (w : CmdWord) : CmdShape w := by
  cases hw : definedWord w with
  | false => exact .undefined w hw
  | true =>
    rw [← cmdWord_opcOf_opdOf w]
    rcases (definedWord_iff w).1 hw with hc | ⟨hc, hr⟩ | ⟨hc, hr⟩ | ⟨hc, hr⟩ | ⟨hc, hr⟩ | hc | hc <;> rw [hc]
    · exact .nop _
    · rw [← markers_rebuild hr]
      exact .setMarkers _ _
    · rw [← policy_rebuild hr, ← bit_policyOfBit ((opdOf w).getLsbD 0)]
      exact .setPolicy _
    · rw [← errFlags_rebuild hr]
      exact .clearErr _ _
    · rw [← byte_rebuild hr]
      exact .txByte _
    · exact .txIntToken _
    · exact .txInt32 _

/-- A word is BadCommand exactly when it is of no row. -/
theorem decodeCmd_eq_illegal_iff (w : CmdWord) : decodeCmd w = .illegal w ↔ definedWord w = false := by
  refine ⟨fun h => ?_, decodeCmd_of_undefined⟩
  cases cmdShape w with
  | undefined _ hw => exact hw
  | _ => simp at h

/-- R65's list is the words of no row: an opcode of the map with every reserved bit 0 is a row's. -/
theorem illegalEncoding_iff (w : CmdWord) : illegalEncoding w ↔ definedWord w = false := by
  constructor
  · intro h
    cases cmdShape w with
    | undefined _ hw => exact hw
    | _ => simp [illegalEncoding] at h
  · intro hw
    rw [← Bool.not_eq_true, definedWord_iff] at hw
    by_cases hmem : opcOf w ∈ [0x00#8, 0x01#8, 0x02#8, 0x03#8, 0x10#8, 0x11#8, 0x12#8]
    · simp only [List.mem_cons, List.not_mem_nil, or_false] at hmem
      rcases hmem with hc | hc | hc | hc | hc | hc | hc <;> simp_all [illegalEncoding]
    · exact .inl hmem

end Sys2Proof

namespace Sys2Proof.Machine

/-- Settles O2, one reading lemma per row; a well-formed illegal word is of no row. -/
theorem decodeOfEncode : Obligations.DecodeOfEncode := by
  intro i hi
  cases i with
  | nop => exact decodeCmd_nopWord 0#32
  | setMarkers h t => exact decodeCmd_setMarkersWord h t
  | setPolicy p => exact decodeCmd_setPolicyWord p
  | clearErr cv cb => exact decodeCmd_clearErrWord cv cb
  | txByte d => exact decodeCmd_txByteWord d
  | txIntToken v => exact decodeCmd_txIntTokenWord v
  | txInt32 v => exact decodeCmd_txInt32Word v
  | illegal w => exact decodeCmd_of_undefined (by simpa [Instr.wellFormed] using hi)
  | rxByte | frmTake | txTake | reset => rfl

/-- Settles O3: a word of each shape is the encoding of its reading, the operand of NOP aside. -/
theorem encodeOfDecode : Obligations.EncodeOfDecode := by
  intro w
  refine ⟨?_, decodeCmd_agent w, ?_, ?_⟩
  · cases cmdShape w with
    | undefined _ hw => simp [decodeCmd_of_undefined hw, Instr.wellFormed, hw]
    | _ => simp [Instr.wellFormed]
  · cases cmdShape w with
    | nop d => simp
    | undefined _ hw => simp [decodeCmd_of_undefined hw, encode]
    | _ => simp [encode]
  · cases cmdShape w with
    | undefined _ hw =>
      have hc : opcOf w ≠ 0x00#8 := fun hc => by simp [(definedWord_iff w).2 (.inl hc)] at hw
      simp [decodeCmd_of_undefined hw, hc]
    | _ => simp

/-- Settles O1, by running the decoder on the sixteen units. -/
theorem specWordsDecode : Obligations.SpecWordsDecode := by
  unfold Obligations.SpecWordsDecode
  decide

/-- Settles O4: both lists of illegal words are the words of no row, and such a word runs as `execIllegal`. -/
theorem illegalEncodings : Obligations.IllegalEncodings := by
  refine ⟨fun w => ?_, decodeCmd_eq_illegal_iff, fun w s h => ?_⟩
  · rw [decodeCmd_eq_illegal_iff, illegalEncoding_iff]
  · rw [h]
    rfl

/-! ### FSTAT (R68) -/

/-- The bits above the low part are those of the high part. -/
theorem getLsbD_add_append {n m : Nat} (v : BitVec n) (l : BitVec m) (i : Nat) :
    (v ++ l).getLsbD (i + m) = v.getLsbD i := by
  simp [BitVec.getLsbD_append]

/-- Settles O44: LEN is the low 16 bits, and the flags above it are read off one by one. -/
theorem fstatLayout : Obligations.FstatLayout := by
  intro r
  have hflag (i : Nat) := getLsbD_add_append
    (0#12 ++ bitField r.overflow ++ bitField r.headless ++ bitField r.nonascii ++ bitField r.empty) r.len i
  refine ⟨BitVec.extractLsb'_append_eq_right, (hflag 0).trans ?empty, (hflag 1).trans ?nonascii,
    (hflag 2).trans ?headless, (hflag 3).trans ?overflow, ?reserved⟩
  case reserved =>
    rw [FrameRecord.fstat, BitVec.extractLsb'_append_eq_of_le (by decide)]
    simp only [extractLsb'_succ_append_bitField]
    exact BitVec.extractLsb'_eq_self
  all_goals simp only [getLsbD_succ_append_bitField, getLsbD_zero_append_bitField]

/-- The record placed for an FSTAT word has that FSTAT, bits 31:20 being 0 (log 10). -/
theorem fstat_recordOfFstat {f : Vec32} (h : fstatReservedClear f = true) : (recordOfFstat f).fstat = f := by
  have hres : f.extractLsb' 20 12 = 0#12 := by simpa [fstatReservedClear] using h
  simp only [FrameRecord.fstat, recordOfFstat, ← hres, extractLsb'_append_bitField]
  rw [BitVec.extractLsb'_append_extractLsb'_eq_extractLsb' (show 16 = 0 + 16 from rfl)]
  exact BitVec.extractLsb'_eq_self

/-! ### A unit placed where the next step takes it -/

/-- A row whose bits are a unit of its port is read as that unit's instruction and placed as that unit. -/
theorem decodeTableWord_of_ok {p : Port} {nbits w : Nat} {i : Instr} (hp : tablePort nbits = some p)
    (hok : decodeBits p nbits w = .ok i) : decodeTableWord nbits w = some i := by
  simp [decodeTableWord, hp, hok]

theorem withFetchWord_of_ok {p : Port} {nbits w : Nat} {i : Instr} (s : State) (hp : tablePort nbits = some p)
    (hok : decodeBits p nbits w = .ok i) : s.withFetchWord nbits w = s.withUnit (unitOfBits p w) := by
  simp [State.withFetchWord, State.withTableWord, hp, hok]

/-- A row whose bits are refused on its port is read as nothing and places nothing. -/
theorem fetchWord_of_refused {p : Port} {nbits w : Nat} (s : State) (hp : tablePort nbits = some p)
    (h : ∀ i, decodeBits p nbits w ≠ .ok i) : decodeTableWord nbits w = none ∧ s.withFetchWord nbits w = s := by
  cases he : decodeBits p nbits w with
  | ok i => exact absurd he (h i)
  | error e => simp [decodeTableWord, State.withFetchWord, State.withTableWord, hp, he]

/-- Whether a step is enabled does not depend on the command words on offer. -/
theorem enabled_withUnit_cmd (i : Instr) (w : CmdWord) (s : State) : enabled i (s.withUnit (.cmd w)) = enabled i s := by
  cases i <;> rfl

theorem step_withUnit_cmd {s : State} {w : CmdWord} (h : enabled (decodeCmd w) s = true) :
    step (s.withUnit (.cmd w)) = exec (decodeCmd w) s :=
  stepRunsDecoded _ .host [] s.turns (.cmd w) rfl trivial rfl ((enabled_withUnit_cmd ..).trans h)

theorem step_withUnit_rx {s : State} (b : Byte) (h : s.frm = none) :
    step (s.withUnit (.rx b)) = exec (.rxByte b) s :=
  stepRunsDecoded _ .rxSource [] s.turns (.rx b) rfl trivial rfl ((rxReady_eq_true s).2 h)

theorem step_withUnit_frm (s : State) (f : Vec32) :
    step (s.withUnit (.frm f)) = exec .frmTake { s with frm := some (recordOfFstat f) } :=
  stepRunsDecoded _ .frameSink [] s.turns (.frm (recordOfFstat f).fstat) rfl trivial rfl rfl

theorem step_withUnit_rst (s : State) : step (s.withUnit .rst) = exec .reset s :=
  stepRunsDecoded _ .resetSource [] s.turns .rst rfl trivial rfl rfl

/-- Settles O10: `decodeBits_eq_ok` says which bits are a unit, and the step runs the unit placed. -/
theorem fetchWordIsRun : Obligations.FetchWordIsRun := by
  refine ⟨?cmd, ?rx, ?frm, ?reserved, ?rst⟩
  case cmd =>
    intro s w hw he
    have hok : decodeBits .cmd 40 w = .ok (decodeCmd (BitVec.ofNat 40 w)) :=
      decodeBits_eq_ok.2 ⟨rfl, hw, nofun, rfl⟩
    rw [withFetchWord_of_ok s rfl hok]
    exact ⟨decodeTableWord_of_ok rfl hok, step_withUnit_cmd he⟩
  case rx =>
    intro s w hw hf
    have hok : decodeBits .rx 8 w = .ok (.rxByte (BitVec.ofNat 8 w)) := decodeBits_eq_ok.2 ⟨rfl, hw, nofun, rfl⟩
    rw [withFetchWord_of_ok s rfl hok]
    exact ⟨decodeTableWord_of_ok rfl hok, step_withUnit_rx _ hf⟩
  case frm =>
    intro s w hw
    have hw32 : w < 2 ^ 32 := by omega
    have hres := (fstatReservedClear_ofNat hw32).2 hw
    have hok : decodeBits .frm 32 w = .ok .frmTake := decodeBits_eq_ok.2 ⟨rfl, hw32, fun _ => hres, rfl⟩
    rw [withFetchWord_of_ok s rfl hok]
    exact ⟨decodeTableWord_of_ok rfl hok, fstat_recordOfFstat hres, step_withUnit_frm s _⟩
  case reserved =>
    intro s w hw
    refine fetchWord_of_refused (p := .frm) s rfl (fun i hok => ?_)
    obtain ⟨_, hw32, hres, _⟩ := decodeBits_eq_ok.1 hok
    exact Nat.not_lt.2 hw ((fstatReservedClear_ofNat hw32).1 (hres rfl))
  case rst =>
    intro s w hw
    have hok : decodeBits .rst 1 w = .ok .reset := decodeBits_eq_ok.2 ⟨rfl, hw, nofun, rfl⟩
    rw [withFetchWord_of_ok s rfl hok]
    exact ⟨decodeTableWord_of_ok rfl hok, step_withUnit_rst s⟩

end Sys2Proof.Machine
end

section
/-! PROOFS. The family of spec/30_encoding.md, the assembler: operands and their ranges (R72), statements of one word,
and text (R77). -/

namespace Sys2Proof.Machine

/-! ### Operands of the assembler (R72) -/

/-- A number from 0 up, as a word: its own bits. -/
theorem ofNat_toNat_eq_ofInt (k : Nat) {v : Int} (h : 0 ≤ v) : BitVec.ofNat k v.toNat = BitVec.ofInt k v := by
  rw [← BitVec.ofInt_natCast, Int.toNat_of_nonneg h]

theorem asmByte_of_range {n : Num} (hlo : 0 ≤ n.value) (hhi : n.value ≤ 255) :
    asmByte n = .ok (BitVec.ofInt 8 n.value) := by
  rw [asmByte, if_pos ⟨hlo, hhi⟩, ofNat_toNat_eq_ofInt 8 hlo]

theorem asmByte_of_outside {n : Num} (h : n.value < 0 ∨ 255 < n.value) : asmByte n = .error (.byteRange n.value) :=
  if_neg (by omega)

/-- A mask in range is the two flags CV and CB, each a bit of the number. -/
theorem asmMask_of_range {n : Num} (hlo : 0 ≤ n.value) (hhi : n.value ≤ 3) :
    asmMask n =
      .ok (0#30 ++ bitField (decide (2 ≤ n.value)) ++ bitField (decide (n.value % 2 = 1))) := by
  rw [asmMask, if_pos ⟨hlo, hhi⟩]
  have hv : n.value = 0 ∨ n.value = 1 ∨ n.value = 2 ∨ n.value = 3 := by omega
  rcases hv with h | h | h | h <;> rw [h] <;> rfl

theorem asmMask_of_outside {n : Num} (h : n.value < 0 ∨ 3 < n.value) : asmMask n = .error (.maskRange n.value) :=
  if_neg (by omega)

/-- A mask is accepted only in range, so only the two flags' bits can be set. -/
theorem asmMask_ok_fields {n : Num} {x : Operand} (h : asmMask n = .ok x) :
    ∃ cv cb, x = 0#30 ++ bitField cv ++ bitField cb := by
  by_cases hr : 0 ≤ n.value ∧ n.value ≤ 3
  · rw [asmMask_of_range hr.1 hr.2] at h
    cases h
    exact ⟨_, _, rfl⟩
  · rw [asmMask_of_outside (by omega)] at h
    cases h

theorem asmInt_dec_of_range {v : Int} (hlo : -(2 ^ 31) ≤ v) (hhi : v ≤ 2 ^ 31 - 1) : asmInt (.dec v) = .ok (u32 v) := by
  rw [u32_eq_ofInt]
  exact if_pos ⟨hlo, hhi⟩

theorem asmInt_dec_of_outside {v : Int} (h : v < -(2 ^ 31) ∨ 2 ^ 31 - 1 < v) :
    asmInt (.dec v) = .error (.intRange v) :=
  if_neg (by omega)

theorem asmInt_hex_of_range {x : Nat} (h : x ≤ 0xFFFFFFFF) : asmInt (.hex x) = .ok (BitVec.ofNat 32 x) :=
  if_pos h

theorem asmInt_hex_of_outside {x : Nat} (h : 0xFFFFFFFF < x) : asmInt (.hex x) = .error (.intRange x) :=
  if_neg (Nat.not_le.2 h)

theorem asmWord_of_range {n : Num} (hlo : 0 ≤ n.value) (hhi : n.value ≤ 2 ^ 40 - 1) :
    asmWord n = .ok (BitVec.ofInt 40 n.value) := by
  rw [asmWord, if_pos ⟨hlo, hhi⟩, ofNat_toNat_eq_ofInt 40 hlo]

theorem asmWord_of_outside {n : Num} (h : n.value < 0 ∨ 2 ^ 40 - 1 < n.value) :
    asmWord n = .error (.wordRange n.value) :=
  if_neg (by omega)

/-! ### A list of operands (R72, R77) -/

/-- Every element converted. -/
theorem asmAll_of_ok {α β : Type} {f : α → Except AsmError β} {g : α → β} {l : List α}
    (h : ∀ a ∈ l, f a = .ok (g a)) : asmAll f l = .ok (l.map g) := by
  induction l with
  | nil => rfl
  | cons a as ih =>
    obtain ⟨ha, has⟩ := List.forall_mem_cons.1 h
    simp only [asmAll, ha, ih has, List.map_cons]

/-- One element refused refuses the whole list. -/
theorem asmAll_of_error {α β : Type} {f : α → Except AsmError β} {l : List α} {a : α} {e : AsmError} (ha : a ∈ l)
    (he : f a = .error e) : ∃ e', asmAll f l = .error e' := by
  induction l with
  | nil => cases ha
  | cons b bs ih =>
    rcases List.mem_cons.1 ha with rfl | hmem
    · exact ⟨e, by simp only [asmAll, he]⟩
    · obtain ⟨e', he'⟩ := ih hmem
      cases hb : f b with
      | error e'' => exact ⟨e'', by simp only [asmAll, hb]⟩
      | ok b' => exact ⟨e', by simp only [asmAll, hb, he']⟩

/-! ### An operand put into a word -/

theorem except_map_of_ok {α β : Type} (f : α → β) {x : Except AsmError α} {a : α} (h : x = .ok a) :
    x.map f = .ok (f a) := by
  rw [h]; rfl

theorem except_map_of_error {α β : Type} (f : α → β) {x : Except AsmError α} {e : AsmError} (h : x = .error e) :
    x.map f = .error e := by
  rw [h]; rfl

/-- What is answered comes from an accepted operand. -/
theorem except_map_eq_ok {α β : Type} {f : α → β} {x : Except AsmError α} {b : β} (h : x.map f = .ok b) :
    ∃ a, x = .ok a ∧ f a = b := by
  cases x with
  | error e => cases h
  | ok a => exact ⟨a, rfl, by injection h⟩

/-! ### Text (R77) -/

theorem asmChars_of_ascii {l : List Char} (h : ∀ c ∈ l, c.toNat ≤ 127) :
    asmAll asmChar l = .ok (l.map (fun c => BitVec.ofNat 8 c.toNat)) :=
  asmAll_of_ok (fun c hc => if_pos (h c hc))

theorem asmChars_of_nonAscii {l : List Char} (h : ∃ c ∈ l, 127 < c.toNat) : ∃ e, asmAll asmChar l = .error e := by
  obtain ⟨c, hmem, hc⟩ := h
  exact asmAll_of_error hmem (if_neg (Nat.not_le.2 hc) : asmChar c = .error (.nonAscii c.toNat))

/-- A text's characters as one statement of bytes: refused as a whole, or one tx_byte for each. -/
theorem map_txBytesItems_of_nonAscii {l : List Char} (h : ∃ c ∈ l, 127 < c.toNat) :
    ∃ e, (asmAll asmChar l).map txBytesItems = .error e := by
  obtain ⟨e, he⟩ := asmChars_of_nonAscii h
  exact ⟨e, except_map_of_error _ he⟩

theorem map_txBytesItems_of_ascii {l : List Char} (h : ∀ c ∈ l, c.toNat ≤ 127) :
    (asmAll asmChar l).map txBytesItems =
      .ok (l.map (fun c => .cmd (cmdWord 0x10#8 (0#24 ++ BitVec.ofNat 8 c.toNat)))) := by
  rw [except_map_of_ok _ (asmChars_of_ascii h), txBytesItems, List.map_map]
  rfl

/-- Settles O59: enc_text is the same conversion, of the head, the text and the tail in this order. -/
theorem textRefusedWhole : Obligations.TextRefusedWhole :=
  ⟨fun _ _ _ => map_txBytesItems_of_nonAscii, fun _ => map_txBytesItems_of_nonAscii,
    fun _ => map_txBytesItems_of_ascii, fun _ _ _ => map_txBytesItems_of_ascii⟩

/-! ### Statements of one word (R72) -/

/-- No item of the list is a BadCommand word. -/
def NoIllegalWord (items : List Item) : Prop := ∀ w, .cmd w ∈ items → decodeCmd w ≠ .illegal w

theorem noIllegalWord_singleton {w : CmdWord} (h : decodeCmd w ≠ .illegal w) : NoIllegalWord [.cmd w] := by
  intro v hv
  obtain rfl : v = w := by simpa using hv
  exact h

theorem noIllegalWord_append {xs ys : List Item} (hx : NoIllegalWord xs) (hy : NoIllegalWord ys) :
    NoIllegalWord (xs ++ ys) :=
  fun w hw => (List.mem_append.1 hw).elim (hx w) (hy w)

theorem noIllegalWord_map {α : Type} {f : α → Item} (l : List α) (h : ∀ a, NoIllegalWord [f a]) :
    NoIllegalWord (l.map f) := by
  intro w hw
  obtain ⟨a, _, ha⟩ := List.mem_map.1 hw
  exact h a w (by simp [ha])

theorem noIllegalWord_txByteItem (b : Byte) : NoIllegalWord [txByteItem b] := noIllegalWord_singleton (by simp)

theorem noIllegalWord_txTokenItem (v : Operand) : NoIllegalWord [txTokenItem v] := noIllegalWord_singleton (by simp)

theorem noIllegalWord_txInt32Item (v : Operand) : NoIllegalWord [txInt32Item v] := noIllegalWord_singleton (by simp)

theorem noIllegalWord_txBytesItems (bs : List Byte) : NoIllegalWord (txBytesItems bs) :=
  noIllegalWord_map bs noIllegalWord_txByteItem

/-- Only `.word` can put a BadCommand word into a program: every other word is of a row of the opcode map. -/
theorem assemble_noIllegalWord {st : Stmt} {items : List Item} (hw : ∀ n, st ≠ .word n)
    (h : assemble st = .ok items) : NoIllegalWord items := by
  cases st with
  | nop => cases h; exact noIllegalWord_singleton (by decide)
  | setMarkers hd tl =>
    simp only [assemble] at h
    split at h <;> cases h
    exact noIllegalWord_singleton (by simp)
  | setPolicy p => cases p <;> cases h <;> exact noIllegalWord_singleton (by decide)
  | clearErr m =>
    obtain ⟨x, hx, rfl⟩ := except_map_eq_ok h
    obtain ⟨cv, cb, rfl⟩ := asmMask_ok_fields hx
    exact noIllegalWord_singleton (by simp)
  | clearErrAll => cases h; exact noIllegalWord_singleton (by decide)
  | txByte b =>
    obtain ⟨x, -, rfl⟩ := except_map_eq_ok h
    exact noIllegalWord_txByteItem x
  | txIntToken v =>
    obtain ⟨x, -, rfl⟩ := except_map_eq_ok h
    exact noIllegalWord_txTokenItem x
  | txInt32 v =>
    obtain ⟨x, -, rfl⟩ := except_map_eq_ok h
    exact noIllegalWord_txInt32Item x
  | word n => exact absurd rfl (hw n)
  | rx bs | rxText bs =>
    obtain ⟨xs, -, rfl⟩ := except_map_eq_ok h
    exact noIllegalWord_map xs (by simp [NoIllegalWord])
  | take | txdrain | reset => cases h; simp [NoIllegalWord]
  | txtake n =>
    simp only [assemble] at h
    split at h <;> cases h
    simp [NoIllegalWord]
  | txBytes bs | txAscii bs | encText _ _ _ =>
    obtain ⟨xs, -, rfl⟩ := except_map_eq_ok h
    exact noIllegalWord_txBytesItems xs
  | encIntArray hd vs tl =>
    simp only [assemble] at h
    split at h <;> cases h
    exact noIllegalWord_append (noIllegalWord_append (noIllegalWord_txBytesItems _)
      (noIllegalWord_map _ noIllegalWord_txTokenItem)) (noIllegalWord_txBytesItems _)
  | encScalarInt hd v tl =>
    simp only [assemble] at h
    split at h <;> cases h
    exact noIllegalWord_append (noIllegalWord_append (noIllegalWord_txBytesItems _)
      (noIllegalWord_txInt32Item _)) (noIllegalWord_txBytesItems _)

theorem assemble_setMarkers_of_ok {hd tl : Num} {h t : Byte} (hh : asmByte hd = .ok h) (ht : asmByte tl = .ok t) :
    assemble (.setMarkers hd tl) = .ok [.cmd (cmdWord 0x01#8 (0#16 ++ t ++ h))] := by
  simp only [assemble, hh, ht]

/-- A marker out of range refuses the statement, the first or the second. -/
theorem assemble_setMarkers_of_error {n : Num} {e : AsmError} (m : Num) (h : asmByte n = .error e) :
    (∃ e', assemble (.setMarkers n m) = .error e') ∧ (∃ e', assemble (.setMarkers m n) = .error e') := by
  constructor
  · exact ⟨e, by simp only [assemble, h]⟩
  · cases hm : asmByte m with
    | ok b => exact ⟨e, by simp only [assemble, hm, h]⟩
    | error e' => exact ⟨e', by simp only [assemble, hm]⟩

/-- An integer accepted by the operand's reading gives the word of either integer command. -/
theorem assemble_int_of_ok {n : Num} {v : Operand} (h : asmInt n = .ok v) :
    (∃ w, assemble (.txIntToken n) = .ok [.cmd w] ∧ decodeCmd w = .txIntToken v) ∧
    (∃ w, assemble (.txInt32 n) = .ok [.cmd w] ∧ decodeCmd w = .txInt32 v) :=
  ⟨⟨_, except_map_of_ok _ h, decodeCmd_txIntTokenWord v⟩, ⟨_, except_map_of_ok _ h, decodeCmd_txInt32Word v⟩⟩

theorem assemble_int_of_error {n : Num} {e : AsmError} (h : asmInt n = .error e) :
    (∃ e', assemble (.txIntToken n) = .error e') ∧ (∃ e', assemble (.txInt32 n) = .error e') :=
  ⟨⟨e, except_map_of_error _ h⟩, ⟨e, except_map_of_error _ h⟩⟩

/-- Settles O58, a clause for each operand's range: in range the word is that of the row, outside it the operand is
refused. -/
theorem assembledWordsDecode : Obligations.AssembledWordsDecode := by
  refine ⟨?badCommand, by decide, ?txByte, ?setMarkers, ?clearErr, ?decimal, ?hexadecimal, ?word, ?byteOutside,
    ?maskOutside, ?decimalOutside, ?hexadecimalOutside, ?wordOutside⟩
  case badCommand =>
    intro st items w h hmem hill
    by_contra hne
    exact assemble_noIllegalWord (not_exists.1 hne) h w hmem hill
  case txByte => exact fun n hlo hhi => ⟨_, except_map_of_ok _ (asmByte_of_range hlo hhi), decodeCmd_txByteWord _⟩
  case setMarkers =>
    exact fun h l hlo hhi llo lhi =>
      ⟨_, assemble_setMarkers_of_ok (asmByte_of_range hlo hhi) (asmByte_of_range llo lhi),
        decodeCmd_setMarkersWord _ _⟩
  case clearErr => exact fun n hlo hhi => ⟨_, except_map_of_ok _ (asmMask_of_range hlo hhi), decodeCmd_clearErrWord _ _⟩
  case decimal => exact fun v hlo hhi => assemble_int_of_ok (asmInt_dec_of_range hlo hhi)
  case hexadecimal => exact fun x hx => assemble_int_of_ok (asmInt_hex_of_range hx)
  case word => exact fun n hlo hhi => except_map_of_ok _ (asmWord_of_range hlo hhi)
  case byteOutside =>
    exact fun n m h => ⟨⟨_, except_map_of_error _ (asmByte_of_outside h)⟩,
      assemble_setMarkers_of_error m (asmByte_of_outside h)⟩
  case maskOutside => exact fun n h => ⟨_, except_map_of_error _ (asmMask_of_outside h)⟩
  case decimalOutside => exact fun v h => assemble_int_of_error (asmInt_dec_of_outside h)
  case hexadecimalOutside => exact fun x h => assemble_int_of_error (asmInt_hex_of_outside h)
  case wordOutside => exact fun n h => ⟨_, except_map_of_error _ (asmWord_of_outside h)⟩

end Sys2Proof.Machine
end

section
/-! PROOFS. The family of spec/41_encoder.md: which bytes a command emits and when it is accepted (R90, R91), tokens
(R93 to R95), big-endian blocks (R96), the encoder commands alone and in sequence (R92, R94, R97, R99, R100), and the
tx stream in any interleaving (R49, R90). -/

namespace Sys2Proof.Machine

/-! ### Tokens (R93 to R95) -/

/-- A number is below ten to the number of its digits. -/
theorem lt_pow_dec_length (m : Nat) : m < 10 ^ (dec m).length := by
  induction m using dec_induction with
  | small m h => simpa [dec_of_lt m h] using h
  | large m h ih =>
    rw [dec_of_ge m h, List.length_append, List.length_singleton, pow_succ]
    omega

/-- At most `n + 1` digits exactly below `10 ^ (n + 1)`. -/
theorem dec_length_le_iff (n m : Nat) : (dec m).length ≤ n + 1 ↔ m < 10 ^ (n + 1) :=
  ⟨fun h => (lt_pow_dec_length m).trans_le (Nat.pow_le_pow_right (by decide) h), dec_length_le n m⟩

/-- The token of an i32 is at most 11 bytes: the magnitude, at most 2^31, has at most ten digits. -/
theorem tok_length_le {v : Int} (hlo : -(2 ^ 31) ≤ v) (hhi : v < 2 ^ 31) : (tok v).length ≤ 11 := by
  have habs : v.natAbs < 10 ^ 10 := by omega
  have hdigits : (dec (absNat v)).length ≤ 10 := dec_length_le 9 _ habs
  rw [tok_length]
  omega

theorem tok_length_eq_four_iff (v : Int) : (tok v).length = 4 ↔ absNat v ≤ 999 := by
  have hdigits := dec_length_le_iff 2 (absNat v)
  rw [tok_length]
  omega

/-- Every byte of a token is the character of a digit: the sign is `'0'` or `'1'`. -/
theorem tok_byte_range (v : Int) : ∀ b ∈ tok v, 0x30 ≤ b.toNat ∧ b.toNat ≤ 0x39 := by
  intro b hb
  rcases List.mem_cons.1 hb with rfl | hb
  · unfold signByte
    split <;> decide
  · obtain ⟨d, hd, rfl⟩ := List.mem_map.1 hb
    have hlt := pad3_digit_lt _ (dec_digit_lt _) d hd
    rw [asciiDigit_toNat d hlt]
    omega

/-- Settles O18: the shape is `tok`'s definition, the lengths follow from the number of digits. -/
theorem tokenShape : Obligations.TokenShape :=
  fun v hlo hhi => ⟨rfl, tok_length v, tok_length_le hlo hhi, tok_length_eq_four_iff v, tok_byte_range v⟩

/-- The characters of digits are read back as the number of the digits. -/
theorem digitsValue_map_asciiDigit {ds : List Nat} (h : ∀ d ∈ ds, d < 10) :
    digitsValue (ds.map asciiDigit) = ds.foldl (fun n d => n * 10 + d) 0 := by
  rw [digitsValue, List.foldl_map]
  refine List.foldl_ext _ _ 0 fun n d hd => ?_
  rw [asciiDigit_toNat d (h d hd), Nat.add_sub_cancel_left]

/-- Zeros in front do not change the value. -/
theorem foldl_pad3 (ds : List Nat) :
    (pad3 ds).foldl (fun n d => n * 10 + d) 0 = ds.foldl (fun n d => n * 10 + d) 0 := by
  have hzeros (k : Nat) : (List.replicate k 0).foldl (fun n d => n * 10 + d) 0 = 0 := by
    induction k with
    | zero => rfl
    | succ k ih => rw [List.replicate_succ, List.foldl_cons, ih]
  rw [pad3, List.foldl_append, hzeros]

/-- The digits of a token are read back as the magnitude. -/
theorem digitsValue_pad3_dec (m : Nat) : digitsValue ((pad3 (dec m)).map asciiDigit) = m := by
  rw [digitsValue_map_asciiDigit (pad3_digit_lt _ (dec_digit_lt m)), foldl_pad3, dec_foldl_value]

/-- The reference decoder recovers every integer from its token (R95): the sign byte and the magnitude. -/
theorem decodeToken_tok (v : Int) : decodeToken (tok v) = v := by
  rw [tok, decodeToken, digitsValue_pad3_dec, signByte]
  by_cases hv : 0 ≤ v
  · rw [if_pos hv, if_pos rfl, Int.natAbs_of_nonneg hv]
  · rw [if_neg hv, if_neg (by decide), Int.ofNat_natAbs_of_nonpos (by omega), neg_neg]

/-- Settles O19: a value is what the reference decoder makes of its token. -/
theorem tokenRoundTrip : Obligations.TokenRoundTrip :=
  ⟨decodeToken_tok, fun v u h => by rw [← decodeToken_tok v, h, decodeToken_tok]⟩

/-! ### Big-endian blocks (R96) -/

/-- The reference decoder recovers an i32 from the four bytes of its encoding. -/
theorem decodeScalar_of_be32 {v : Int} {b0 b1 b2 b3 : Byte} (hlo : -(2 ^ 31) ≤ v) (hhi : v < 2 ^ 31)
    (h : be32 (u32 v) = [b0, b1, b2, b3]) : decodeScalar b0 b1 b2 b3 = v := by
  simp only [be32, List.cons.injEq, and_true] at h
  obtain ⟨rfl, rfl, rfl, rfl⟩ := h
  rw [decodeScalar, be32_value, BitVec.ofNat_toNat, BitVec.setWidth_eq, sint32_u32 v hlo hhi]

/-- Settles O22: four bytes are the encoding of the i32 with those bits, and the reference decoder leaves no other. -/
theorem scalarRoundTrip : Obligations.ScalarRoundTrip := by
  refine ⟨fun v hlo hhi => ⟨_, _, _, _, rfl, decodeScalar_of_be32 hlo hhi rfl⟩, fun b0 b1 b2 b3 => ?_⟩
  have hbytes : be32 (u32 (sint32 (b0 ++ b1 ++ b2 ++ b3))) = [b0, b1, b2, b3] := by rw [u32_sint32, be32_append]
  obtain ⟨hlo, hhi⟩ := sint32_range (b0 ++ b1 ++ b2 ++ b3)
  refine ⟨_, ⟨⟨hlo, hhi⟩, hbytes⟩, ?_⟩
  rintro v ⟨⟨vlo, vhi⟩, hv⟩
  rw [← decodeScalar_of_be32 vlo vhi hv, decodeScalar_of_be32 hlo hhi hbytes]

/-! ### The bytes of a command and the room rule (R90, R91) -/

/-- R91 counts the bytes an instruction emits. -/
theorem emitted_length (p : Policy) (i : Instr) : (emitted p i).length = nbytes p i := by
  cases i with
  | txIntToken v => cases hr : refusesValue v p <;> simp [emitted, nbytes, hr]
  | _ => rfl

/-- No instruction emits more bytes than the longest token has (R6). -/
theorem nbytes_le (p : Policy) (i : Instr) : nbytes p i ≤ 11 := by
  cases i with
  | txIntToken v =>
    obtain ⟨hlo, hhi⟩ := sint32_range v
    simp only [nbytes]
    split
    · exact Nat.zero_le _
    · exact tok_length_le hlo hhi
  | _ => simp [nbytes]

theorem eleven_le_txDepth : 11 ≤ Config.txDepth := Nat.le_add_left 11 _

/-- A command is accepted exactly when it emits nothing or all its bytes fit in TXQ (R90). -/
theorem enabled_command_iff {i : Instr} (hi : i.agent = .host) (s : State) :
    enabled i s = true ↔ nbytes s.policy i = 0 ∨ s.txq.length + nbytes s.policy i ≤ Config.txDepth := by
  cases i with
  | txIntToken v => cases hr : refusesValue v s.policy <;> simp [enabled, nbytes, hr, tok]
  | rxByte | frmTake | txTake | reset => cases hi
  | _ => simp [enabled, nbytes]

/-- Where the bytes of a command fit, it is accepted. -/
theorem enabled_of_room {i : Instr} {s : State} (hi : i.agent = .host)
    (hroom : s.txq.length + nbytes s.policy i ≤ Config.txDepth) : enabled i s = true :=
  (enabled_command_iff hi s).2 (.inr hroom)

/-- Settles O11: a command of no bytes fits a TXQ within its bound, and an empty TXQ has room for the longest token. -/
theorem roomRule : Obligations.RoomRule := by
  refine ⟨fun w s hq => ?_, fun w s hq => ?_, exec_of_not_enabled⟩
  · rw [enabled_command_iff (decodeCmd_agent w)]
    omega
  · refine enabled_of_room (decodeCmd_agent w) ?_
    rw [hq, List.length_nil, Nat.zero_add]
    exact (nbytes_le _ _).trans eleven_le_txDepth

/-- An accepted command appends exactly the bytes it emits to TXQ (R90). -/
theorem effectOf_txq_of_command {i : Instr} (hi : i.agent = .host) (s : State) :
    (effectOf i s).txq = s.txq ++ emitted s.policy i := by
  cases i with
  | txIntToken v => cases hr : refusesValue v s.policy <;> simp [effectOf, emitted, hr]
  | rxByte | frmTake | txTake | reset => cases hi
  | txByte | txInt32 => rfl
  | nop | setMarkers | setPolicy | clearErr | illegal => exact (List.append_nil _).symm

/-- Settles O12: an accepted command has its effect. -/
theorem bytesEmittedCount : Obligations.BytesEmittedCount := by
  intro w s t he h
  rw [exec_of_enabled _ _ he] at h
  cases h
  exact ⟨effectOf_txq_of_command (decodeCmd_agent w) s, emitted_length _ _⟩

/-! ### One encoder command (R92, R94, R97, R98) -/

/-- Settles O14: the room rule for one byte, and the reading of the word's reserved bits. -/
theorem txByteResult : Obligations.TxByteResult := by
  obtain ⟨illegal_iff, -, illegal_effect⟩ := illegalEncodings
  refine ⟨fun d s hroom => ?_, fun d s hfull => ?_, fun w hc hr => ?_, fun w s hc hr => ?_⟩
  · exact exec_of_enabled (.txByte d) s ((roomFor_eq_true 1 s).2 hroom)
  · exact exec_of_not_enabled (.txByte d) s ((roomFor_eq_false 1 s).2 hfull)
  · simp [decodeCmd, hc, hr]
  · exact illegal_effect w s ((illegal_iff w).2 (.inr (.inr (.inr (.inr ⟨hc, hr⟩)))))

/-- TX_INT_TOKEN accepts exactly the values that WIDE or a magnitude below 1000 lets through (R94). -/
theorem refusesValue_eq_false (v : Operand) (p : Policy) :
    refusesValue v p = false ↔ p = .wide ∨ (sint32 v).natAbs < 1000 := by
  cases p <;> simp [refusesValue, tooWide]

/-- `'0','0','0','0'` would decode to 0, whose token has the other sign (R93). -/
theorem tok_ne_zeros (v : Int) : tok v ≠ [0x30#8, 0x30#8, 0x30#8, 0x30#8] := by
  intro h
  have hv : v = 0 := by
    rw [← decodeToken_tok v, h]
    decide
  subst hv
  exact absurd h (by decide)

/-- Settles O15: the refusal needs no room, and a value that is not refused follows the room rule for its token. -/
theorem txIntTokenResult : Obligations.TxIntTokenResult := by
  refine ⟨?refused, ?room, ?full, fun w hc => ?word, by decide, by decide, tok_ne_zeros⟩
  case refused =>
    intro v s hp hv
    have hr := (refusesValue_eq_true v s.policy).2 ⟨hp, hv⟩
    rw [exec_of_enabled _ s (by simp [enabled, hr]), effectOf, if_pos hr]
    rfl
  case room =>
    intro v s hpv hroom
    have hr := (refusesValue_eq_false v s.policy).2 hpv
    rw [exec_of_enabled _ s (by simpa [enabled, nbytes, hr] using hroom), effectOf, hr]
    rfl
  case full =>
    intro v s hpv hfull
    have hr := (refusesValue_eq_false v s.policy).2 hpv
    exact exec_of_not_enabled _ s (by simpa [enabled, nbytes, hr] using hfull)
  case word => simp [decodeCmd, hc]

/-- Settles O16: the room rule for four bytes. -/
theorem txInt32Result : Obligations.TxInt32Result := by
  refine ⟨fun v s hroom => ?_, fun v s hfull => ?_, fun w hc => ?_⟩
  · exact exec_of_enabled (.txInt32 v) s ((roomFor_eq_true 4 s).2 hroom)
  · exact exec_of_not_enabled (.txInt32 v) s ((roomFor_eq_false 4 s).2 hfull)
  · simp [decodeCmd, hc]

/-- tx.take delivers the first byte of TXQ and leaves the rest (R98). -/
theorem exec_txTake_of_cons {b : Byte} {q : List Byte} {s : State} (hq : s.txq = b :: q) :
    exec .txTake s = .next (deliverTx b (setTxq q s)) := by
  rw [exec_of_enabled _ s (by simp [enabled, hq])]
  simp [effectOf, hq]

/-- Settles O17: tx.take is enabled exactly where TXQ has a first byte. -/
theorem txTakeResult : Obligations.TxTakeResult :=
  ⟨fun _ _ _ => exec_txTake_of_cons, fun s hq => exec_of_not_enabled _ s (by simp [enabled, hq])⟩

/-! ### Encoder commands in sequence (R99, R100, R204) -/

/-- The three commands that emit bytes. -/
def isEncoder : Instr → Bool
  | .txByte _ | .txIntToken _ | .txInt32 _ => true
  | _ => false

/-- The command refuses its value under the policy (R94). -/
def refusedBy (p : Policy) : Instr → Bool
  | .txIntToken v => refusesValue v p
  | _ => false

/-- The state with the bytes appended to TXQ, and with ERR_VALUE_RANGE set if a value was refused. -/
def afterEncoding (bytes : List Byte) (refused : Bool) (s : State) : State :=
  { s with txq := s.txq ++ bytes, errValueRange := s.errValueRange || refused }

theorem afterEncoding_nil (s : State) : afterEncoding [] false s = s := by
  simp [afterEncoding]

theorem afterEncoding_accepted (bytes : List Byte) (s : State) :
    afterEncoding bytes false s = { s with txq := s.txq ++ bytes } := by
  simp [afterEncoding]

theorem afterEncoding_afterEncoding (xs ys : List Byte) (a b : Bool) (s : State) :
    afterEncoding ys b (afterEncoding xs a s) = afterEncoding (xs ++ ys) (a || b) s := by
  simp [afterEncoding, Bool.or_assoc]

theorem isEncoder_agent {i : Instr} (hi : isEncoder i = true) : i.agent = .host := by
  cases i with
  | txByte | txIntToken | txInt32 => rfl
  | _ => cases hi

/-- An encoder command writes TXQ and ERR_VALUE_RANGE alone (R101). -/
theorem effectOf_encoder {i : Instr} (hi : isEncoder i = true) (s : State) :
    effectOf i s = afterEncoding (emitted s.policy i) (refusedBy s.policy i) s := by
  cases i with
  | txByte d => exact (afterEncoding_accepted [d] s).symm
  | txInt32 v => exact (afterEncoding_accepted (be32 v) s).symm
  | txIntToken v =>
    cases hr : refusesValue v s.policy <;>
      simp [effectOf, emitted, refusedBy, hr, afterEncoding, emitTx, raiseValueOutOfRange]
  | _ => cases hi

/-- Encoder commands one after another, with room for all their bytes, emit them in order; each refused value sets
ERR_VALUE_RANGE and the other bytes are still sent (R90, R204). -/
theorem execAll_encoder {is : List Instr} (his : ∀ i ∈ is, isEncoder i = true) {s : State}
    (hroom : s.txq.length + (is.flatMap (emitted s.policy)).length ≤ Config.txDepth) :
    execAll is s = .next (afterEncoding (is.flatMap (emitted s.policy)) (is.any (refusedBy s.policy)) s) := by
  induction is generalizing s with
  | nil => exact congrArg Host.Outcome.next (afterEncoding_nil s).symm
  | cons i is ih =>
    have hi := his i List.mem_cons_self
    rw [List.flatMap_cons, List.length_append, emitted_length] at hroom
    rw [execAll_cons_of_enabled _ (enabled_of_room (isEncoder_agent hi) (by omega)), effectOf_encoder hi,
      ih (fun j hj => his j (List.mem_cons_of_mem i hj)), List.flatMap_cons, List.any_cons]
    · exact congrArg Host.Outcome.next (afterEncoding_afterEncoding ..)
    · simp only [afterEncoding, List.length_append, emitted_length]
      omega

/-! The commands of the pseudo-instructions, and what they emit and refuse (R74 to R76). -/

theorem commands_txBytesItems (bs : List Byte) :
    ((txBytesItems bs).filterMap Item.word?).map decodeCmd = bs.map .txByte := by
  induction bs with
  | nil => rfl
  | cons b bs ih => simpa [txBytesItems, txByteItem, Item.word?] using ih

theorem commands_txTokenItems (vs : List Operand) :
    ((vs.map txTokenItem).filterMap Item.word?).map decodeCmd = vs.map .txIntToken := by
  induction vs with
  | nil => rfl
  | cons v vs ih => simpa [txTokenItem, Item.word?] using ih

theorem commands_encIntArrayItems (h t : List Byte) (vs : List Operand) :
    ((encIntArrayItems h vs t).filterMap Item.word?).map decodeCmd =
      h.map .txByte ++ vs.map .txIntToken ++ t.map .txByte := by
  simp only [encIntArrayItems, List.filterMap_append, List.map_append, commands_txBytesItems, commands_txTokenItems]

theorem commands_encScalarIntItems (h t : List Byte) (v : Operand) :
    ((encScalarIntItems h v t).filterMap Item.word?).map decodeCmd =
      h.map .txByte ++ [.txInt32 v] ++ t.map .txByte := by
  simp [encScalarIntItems, List.filterMap_append, commands_txBytesItems, txInt32Item, Item.word?]

theorem flatMap_emitted_txByte (p : Policy) (bs : List Byte) : (bs.map .txByte).flatMap (emitted p) = bs := by
  simp [List.flatMap_map, emitted]

theorem any_refusedBy_txByte (p : Policy) (bs : List Byte) : (bs.map .txByte).any (refusedBy p) = false := by
  simp [refusedBy]

theorem flatMap_emitted_wide (vs : List Operand) :
    (vs.map .txIntToken).flatMap (emitted .wide) = vs.flatMap (fun v => tok (sint32 v)) := by
  simp [List.flatMap_map, emitted, refusesValue]

theorem any_refusedBy_wide (vs : List Operand) : (vs.map .txIntToken).any (refusedBy .wide) = false := by
  simp [refusedBy, refusesValue]

theorem flatMap_emitted_reject (vs : List Operand) :
    (vs.map .txIntToken).flatMap (emitted .reject) =
      (vs.filter (fun v => !tooWide (sint32 v))).flatMap (fun v => tok (sint32 v)) := by
  induction vs with
  | nil => rfl
  | cons v vs ih => cases hv : tooWide (sint32 v) <;> simp [emitted, refusesValue, hv, ih]

theorem any_refusedBy_reject (vs : List Operand) :
    (vs.map .txIntToken).any (refusedBy .reject) = vs.any (fun v => tooWide (sint32 v)) := by
  simp [refusedBy, refusesValue, Function.comp_def]

/-- Encoder commands between head bytes and tail bytes emit H, their own bytes, and T (R74, R99, R100). -/
theorem execAll_framed {is : List Instr} (his : ∀ i ∈ is, isEncoder i = true) (h t : List Byte) {s : State} {p : Policy}
    (hp : s.policy = p) (hroom : s.txq.length + (h ++ is.flatMap (emitted p) ++ t).length ≤ Config.txDepth) :
    execAll (h.map .txByte ++ is ++ t.map .txByte) s =
      .next (afterEncoding (h ++ is.flatMap (emitted p) ++ t) (is.any (refusedBy p)) s) := by
  subst hp
  have hframed : ∀ i ∈ h.map Instr.txByte ++ is ++ t.map Instr.txByte, isEncoder i = true := by
    simpa [or_imp, forall_and, isEncoder] using his
  have hbytes : (h.map Instr.txByte ++ is ++ t.map Instr.txByte).flatMap (emitted s.policy) =
      h ++ is.flatMap (emitted s.policy) ++ t := by
    rw [List.flatMap_append, List.flatMap_append, flatMap_emitted_txByte, flatMap_emitted_txByte]
  rw [execAll_encoder hframed (by rwa [hbytes]), hbytes, List.any_append, List.any_append, any_refusedBy_txByte,
    any_refusedBy_txByte, Bool.or_false, Bool.false_or]

/-- Settles O55: under WIDE no value is refused. -/
theorem encIntArrayResult : Obligations.EncIntArrayResult := by
  intro h t vs s hp hroom
  rw [commands_encIntArrayItems, execAll_framed (by simp [isEncoder]) h t hp (by rwa [flatMap_emitted_wide]),
    flatMap_emitted_wide, any_refusedBy_wide, afterEncoding_accepted]

/-- Settles O56: under REJECT the values of magnitude 1000 and more are refused, and the others emit their tokens. -/
theorem encIntArrayUnderReject : Obligations.EncIntArrayUnderReject := by
  intro h t vs s hp hroom
  rw [commands_encIntArrayItems, execAll_framed (by simp [isEncoder]) h t hp (by rwa [flatMap_emitted_reject]),
    flatMap_emitted_reject, any_refusedBy_reject, afterEncoding]

/-- Settles O57: TX_INT32 emits its four bytes under either policy, and refuses none. -/
theorem encScalarIntResult : Obligations.EncScalarIntResult := by
  intro h t v s hroom
  have hbytes : [Instr.txInt32 (u32 v)].flatMap (emitted s.policy) = be32 (u32 v) := List.flatMap_singleton ..
  rw [commands_encScalarIntItems, execAll_framed (by simp [isEncoder]) h t rfl (by rwa [hbytes]), hbytes]
  exact congrArg Host.Outcome.next (afterEncoding_accepted ..)

/-! ### A command that waits (R90, R49) -/

/-- No instruction takes an offer off the cmd port: taking the offer is the step's part (R49). -/
@[simp] theorem effectOf_cmdIn (i : Instr) (s : State) : (effectOf i s).cmdIn = s.cmdIn := by
  cases i with
  | frmTake => cases hf : s.frm <;> simp [effectOf, hf]
  | txTake => cases hq : s.txq <;> simp [effectOf, hq]
  | _ => exact (effectOf_sameAgents s (by simp [Instr.agent]) (by simp [Instr.agent])).cmdIn

/-- Only the host's step takes a command off the cmd port. -/
theorem takeOffer_cmdIn {a : Agent} (ha : a ≠ .host) (s : State) : (takeOffer a s).cmdIn = s.cmdIn := by
  cases a with
  | host => exact absurd rfl ha
  | _ => rfl

/-- The host runs the first command on offer, and only where it is enabled. -/
theorem readyInstr_host {s : State} {w : CmdWord} {ws : List CmdWord} {i : Instr} (hc : s.cmdIn = w :: ws)
    (hi : s.readyInstr .host = some i) : i = decodeCmd w ∧ enabled (decodeCmd w) s = true := by
  obtain ⟨u, hu, rfl, he⟩ := readyInstr_eq_some hi
  obtain rfl : .cmd w = u := by simpa [State.unitFor, hc] using hu
  exact ⟨rfl, he⟩

/-- While the first command must wait, no step takes a command off the cmd port. -/
theorem step_keeps_blocked_cmdIn {s t : State} {w : CmdWord} {ws : List CmdWord} (hc : s.cmdIn = w :: ws)
    (hwait : enabled (decodeCmd w) s = false) (h : step s = .next t) : t.cmdIn = w :: ws := by
  rcases step_next_cases h with rfl | ⟨ts, _, rfl⟩ | ⟨ts, x, i, _, _, hi, rfl⟩
  · exact hc
  · exact hc
  · have hx : turnAgent x ≠ .host := by
      intro hx
      rw [hx] at hi
      simp [(readyInstr_host hc hi).2] at hwait
    rw [effectOf_cmdIn, takeOffer_cmdIn hx]
    exact hc

/-- Whether a step is enabled does not depend on what the tx sink has taken. -/
@[simp] theorem enabled_deliverTx (i : Instr) (b : Byte) (s : State) : enabled i (deliverTx b s) = enabled i s := by
  cases i <;> rfl

/-- The host's turn waits while the first command on offer is not enabled. -/
theorem allWait_blocked_host {s : State} {w : CmdWord} {ws : List CmdWord} (hc : s.cmdIn = w :: ws)
    (hwait : enabled (decodeCmd w) s = false) : s.allWait [] [.once .host] := by
  refine ⟨(mustWait_once ..).2 (.inr ?_), trivial⟩
  simpa [State.unitFor, hc, decode] using hwait

/-- The tx sink takes its byte past the host's waiting turn, which stays first (R13, R50). -/
theorem txTake_passes_blocked_host {s : State} {w : CmdWord} {ws : List CmdWord} {b : Byte} {q : List Byte}
    {rest : List Turn} (ht : s.turns = .once .host :: .once .txSink :: rest) (hc : s.cmdIn = w :: ws)
    (hq : s.txq = b :: q) (hwait : enabled (decodeCmd w) s = false) :
    step s = .next (deliverTx b (setTurns (.once .host :: rest) (setTxq q s))) := by
  obtain ⟨-, -, -, takes, -⟩ := stepTakesOffer s [.once .host] rest (allWait_blocked_host hc hwait)
  exact (takes b q ht hq).trans (exec_txTake_of_cons hq)

/-- Settles O13: the host's waiting turn is passed over; once the tx sink has taken a byte it is the first that can
move. -/
theorem blockedCommandHoldsPort : Obligations.BlockedCommandHoldsPort := by
  constructor
  · intro s t w ws hc hwait h
    exact ⟨step_keeps_blocked_cmdIn hc hwait h, fun rest ht =>
      waiting_front_stays (pre := [.once .host]) (allWait_blocked_host hc hwait) ht h⟩
  · intro s w ws b q rest ht hc hq hwait hfits
    have hsink := txTake_passes_blocked_host ht hc hq hwait
    obtain ⟨runs, -⟩ := stepTakesOffer (deliverTx b (setTurns (.once .host :: rest) (setTxq q s))) [] rest trivial
    refine run_two hsink (runs w ws rfl hc ?_)
    rw [enabled_deliverTx, enabled_setTurns]
    exact hfits

/-! ### The tx stream (R49, R90, R101) -/

/-- The policy after an instruction that is no reset event (R152). -/
theorem effectOf_policyAfter {i : Instr} (hr : i ≠ .reset) (s : State) :
    (effectOf i s).policy = policyAfter s.policy i := by
  have e := congrArg ControlRegs.policy (effectOf_controlRegs i s)
  cases i with
  | reset => exact absurd rfl hr
  | _ => exact e

/-- A command that is run moves its bytes from the offers to the end of TXQ, and leaves the policy it sets to the
commands behind it. -/
theorem txStream_of_command {s : State} {w : CmdWord} {ws : List CmdWord} (hc : s.cmdIn = w :: ws) :
    (effectOf (decodeCmd w) (takeOffer .host s)).txStream = s.txStream := by
  have hagent := decodeCmd_agent w
  have hout : (effectOf (decodeCmd w) (takeOffer .host s)).txOut = s.txOut :=
    (effectOf_sameAgents _ (by simp [hagent]) (by simp [hagent])).txOut.trans (takeOffer_txOut ..)
  have hpolicy : (effectOf (decodeCmd w) (takeOffer .host s)).policy = policyAfter s.policy (decodeCmd w) :=
    (effectOf_policyAfter (by intro h; simp [h, Instr.agent] at hagent) _).trans (by rw [takeOffer_policy])
  simp only [State.txStream, hout, hpolicy, effectOf_txq_of_command hagent, effectOf_cmdIn, takeOffer_txq,
    takeOffer_policy, takeOffer_host_cmdIn, hc, List.drop_succ_cons, List.drop_zero, pendingBytes, List.append_assoc]

/-- A byte the tx sink takes moves from the front of TXQ to the end of what was taken. -/
theorem txStream_of_txTake (s : State) : (effectOf .txTake s).txStream = s.txStream := by
  cases hq : s.txq <;> simp [State.txStream, effectOf, hq]

/-- The decoder's steps touch neither the queue nor the policy nor the commands on offer (R136). -/
theorem txStream_of_rxByte (b : Byte) (s : State) :
    (effectOf (.rxByte b) (takeOffer .rxSource s)).txStream = s.txStream := by
  simp [State.txStream, effectOf]

theorem txStream_of_frmTake (s : State) : (effectOf .frmTake s).txStream = s.txStream := by
  cases hf : s.frm <;> simp [State.txStream, effectOf, hf]

/-- A step that runs no reset event conserves the tx stream. -/
theorem step_txStream {s t : State} (hno : s.noResetTurn) (h : step s = .next t) : t.txStream = s.txStream := by
  rcases step_next_cases h with rfl | ⟨ts, _, rfl⟩ | ⟨ts, x, i, _, hx, hi, rfl⟩
  · rfl
  · rfl
  · obtain ⟨-, ⟨w, ha, hc, rfl⟩ | ⟨b, ha, -, rfl, -⟩ | ⟨r, ha, -, rfl⟩ | ⟨b, ha, -, rfl⟩ | ⟨ha, -⟩⟩ :=
      readyInstr_shape hi
    · obtain ⟨ws, hc⟩ := List.head?_eq_some_iff.1 hc
      rw [ha]
      exact txStream_of_command (s := setTurns ts s) hc
    · rw [ha]
      exact txStream_of_rxByte b (setTurns ts s)
    · rw [ha]
      exact txStream_of_frmTake (setTurns ts s)
    · rw [ha]
      exact txStream_of_txTake (setTurns ts s)
    · cases x with
      | once a => cases ha; exact absurd hx hno
      | drain => cases ha

/-- No step makes a reset event due. -/
theorem step_noResetTurn {s t : State} (hno : s.noResetTurn) (h : step s = .next t) : t.noResetTurn := by
  rcases step_next_cases h with rfl | ⟨ts, hts, rfl⟩ | ⟨ts, x, i, hts, _, _, rfl⟩
  · exact hno
  · exact fun hm => hno (hts _ hm)
  · intro hm
    rw [effectOf_turns, takeOffer_turns, setTurns_turns] at hm
    exact hno (hts _ hm)

/-- Settles O52: what every step keeps, every run keeps. -/
theorem txStreamConserved : Obligations.TxStreamConserved := by
  intro k s t hno h
  have hkeep : ∀ u v : State, u.noResetTurn ∧ u.txStream = s.txStream → step u = .next v →
      v.noResetTurn ∧ v.txStream = s.txStream :=
    fun u v ⟨hu, hstream⟩ huv => ⟨step_noResetTurn hu huv, (step_txStream hu huv).trans hstream⟩
  exact (run_keeps hkeep k s t ⟨hno, rfl⟩ h).2

end Sys2Proof.Machine
end

section
/-! PROOFS. The family of spec/42_frame_decoder.md, its instructions: what each instruction can do to the decoder (R51,
R120 to R126), the host routine (R133), and an rx byte that waits (R120, R191). -/

namespace Sys2Proof.Machine

/-! ### What each instruction can do to the decoder -/

/-- No instruction takes an offer off the rx port: taking the offer is the step's part (R49). -/
@[simp] theorem effectOf_rxIn (i : Instr) (s : State) : (effectOf i s).rxIn = s.rxIn := by
  cases i with
  | frmTake => cases hf : s.frm <;> simp [effectOf, hf]
  | txTake => cases hq : s.txq <;> simp [effectOf, hq]
  | _ => exact (effectOf_sameAgents s (by simp [Instr.agent]) (by simp [Instr.agent])).rxIn

/-- Only the rx source's step takes a byte off the rx port. -/
theorem takeOffer_rxIn {a : Agent} (ha : a ≠ .rxSource) (s : State) : (takeOffer a s).rxIn = s.rxIn := by
  cases a with
  | rxSource => exact absurd rfl ha
  | _ => rfl

theorem SameDecoder.refl (s : State) : SameDecoder s s := ⟨rfl, rfl, rfl, rfl, rfl, rfl⟩

/-- rx.byte with FRM none runs the branch its byte chooses (R121). -/
theorem exec_rxByte_of_none {s : State} (b : Byte) (hf : s.frm = none) :
    exec (.rxByte b) s = .next (rxBranch Config.accCap b s) :=
  exec_of_enabled (.rxByte b) s ((rxReady_eq_true s).2 hf)

/-- rx.byte waits while a record is in FRM (R120). -/
theorem exec_rxByte_of_pending {s : State} (b : Byte) (hf : s.frm ≠ none) : exec (.rxByte b) s = .next s :=
  exec_of_not_enabled (.rxByte b) s (Bool.eq_false_iff.2 (hf ∘ (rxReady_eq_true s).1))

theorem effectOf_frmTake_of_some {s : State} {r : FrameRecord} (hf : s.frm = some r) :
    effectOf .frmTake s = clearFrm (deliverFrm r s) := by
  simp [effectOf, hf]

/-- frm.take delivers the record in FRM (R126). -/
theorem exec_frmTake_of_some {s : State} {r : FrameRecord} (hf : s.frm = some r) :
    exec .frmTake s = .next (clearFrm (deliverFrm r s)) := by
  rw [exec_of_enabled _ s (by simp [enabled, hf]), effectOf_frmTake_of_some hf]

/-- The commands but SET_MARKERS, and tx.take, leave what rx.byte reads and writes, and deliver no record. -/
theorem exec_sameDecoder {i : Instr} {s t : State} (hi : i.agent = .host ∨ i.agent = .txSink)
    (hm : ∀ h l, i ≠ .setMarkers h l) (h : exec i s = .next t) : SameDecoder s t ∧ t.frmOut = s.frmOut := by
  rcases hi with hi | hi
  · obtain ⟨hmarkers, -⟩ := configurationWriters i s t h (by rintro rfl; cases hi)
    obtain ⟨hhead, htail⟩ := hmarkers hm
    obtain ⟨hacc, hovf, hseen, hfrm⟩ := exec_host_decoder hi h
    exact ⟨⟨hhead, htail, hacc, hovf, hseen, hfrm⟩, (exec_sameAgents h (by simp [hi]) (by simp [hi])).frmOut⟩
  · obtain rfl : i = .txTake := by
      cases i with
      | txTake => rfl
      | _ => cases hi
    rcases txTake_next_cases h with rfl | ⟨b, q, _, rfl⟩ <;> exact ⟨⟨rfl, rfl, rfl, rfl, rfl, rfl⟩, rfl⟩

/-- What an instruction that is no SET_MARKERS can do to the decoder: nothing, one branch of rx.byte, the delivery of
the record, or reset. -/
theorem decoder_next_cases {i : Instr} {s t : State} (hm : ∀ h l, i ≠ .setMarkers h l) (h : exec i s = .next t) :
    (SameDecoder s t ∧ t.frmOut = s.frmOut) ∨
    (∃ b, s.frm = none ∧ t = rxBranch Config.accCap b s) ∨
    (∃ r, s.frm = some r ∧ t = clearFrm (deliverFrm r s)) ∨
    (i = .reset ∧ t = resetBlock s) := by
  cases i with
  | rxByte b =>
    rcases exec_next_cases h with rfl | ⟨he, rfl⟩
    · exact .inl ⟨.refl _, rfl⟩
    · exact .inr (.inl ⟨b, (rxReady_eq_true s).1 he, rfl⟩)
  | frmTake =>
    rcases frmTake_next_cases h with rfl | hr
    · exact .inl ⟨.refl _, rfl⟩
    · exact .inr (.inr (.inl hr))
  | reset => cases h; exact .inr (.inr (.inr ⟨rfl, rfl⟩))
  | txTake => exact .inl (exec_sameDecoder (.inr rfl) hm h)
  | _ => exact .inl (exec_sameDecoder (.inl rfl) hm h)

/-! ### One instruction of the decoder (R120 to R126) -/

theorem rxBranch_of_head {cap : Nat} {b : Byte} {s : State} (hb : b = s.head) : rxBranch cap b s = headBranch s :=
  if_pos hb

theorem rxBranch_of_tail {cap : Nat} {b : Byte} {s : State} (hb : b ≠ s.head) (hl : b = s.tail) :
    rxBranch cap b s = tailBranch s :=
  (if_neg hb).trans (if_pos hl)

theorem rxBranch_of_payload {cap : Nat} {b : Byte} {s : State} (hb : b ≠ s.head) (hl : b ≠ s.tail) :
    rxBranch cap b s = payloadBranch cap b s :=
  (if_neg hb).trans (if_neg hl)

/-- Settles O23: the head branch. -/
theorem headByteResult : Obligations.HeadByteResult := by
  intro s hf
  rw [exec_rxByte_of_none _ hf, rxBranch_of_head rfl, headBranch]

/-- LEN, a 16-bit number, is the length of a payload within ACC_CAP (R5, R31). -/
theorem toNat_ofNat_of_le_accCap {n : Nat} (h : n ≤ Config.accCap) : (BitVec.ofNat 16 n).toNat = n := by
  rw [BitVec.toNat_ofNat]
  exact Nat.mod_eq_of_lt (h.trans_lt accCap_lt)

@[simp] theorem mkframe_payload (s : State) : (mkframe s).payload = s.acc := rfl

/-- The record of R125, field by field. -/
theorem mkframe_eq (s : State) : mkframe s = {
    payload := s.acc, len := BitVec.ofNat 16 s.acc.length, empty := decide (s.acc.length = 0),
    nonascii := s.acc.any (fun b => decide (0x7F < b.toNat)), headless := !s.headSeen, overflow := s.accOvf } := by
  have hempty : s.acc.isEmpty = decide (s.acc.length = 0) := by cases s.acc <;> rfl
  simp [mkframe, hempty, nonasciiOf, isAscii, ← decide_not]

/-- Settles O24: the tail branch, with the record computed from the state before. -/
theorem tailByteResult : Obligations.TailByteResult := by
  intro s hf hne
  rw [exec_rxByte_of_none _ hf, rxBranch_of_tail hne rfl, ← mkframe_eq]
  exact ⟨rfl, toNat_ofNat_of_le_accCap⟩

/-- Settles O25: the payload branch, with room and without. -/
theorem payloadByteResult : Obligations.PayloadByteResult := by
  constructor
  · intro b s hf hb hl hroom
    rw [exec_rxByte_of_none _ hf, rxBranch_of_payload hb hl, payloadBranch, if_pos hroom]
  · intro b s hf hb hl hfull
    rw [exec_rxByte_of_none _ hf, rxBranch_of_payload hb hl, payloadBranch, if_neg (Nat.not_lt.2 hfull)]

/-- Settles O27: frm.take is enabled exactly where FRM holds a record. -/
theorem frmTakeResult : Obligations.FrmTakeResult :=
  ⟨fun _ _ => exec_frmTake_of_some, fun s hf => exec_of_not_enabled _ s (by simp [enabled, hf])⟩

/-- STATUS.FRM_VALID says whether FRM holds a record (R33). -/
theorem status_frmValid (s : State) : s.status.getLsbD 0 = s.frm.isSome := by
  obtain ⟨hvalid, -⟩ := statusLayout s
  exact hvalid

/-- Settles O34: the poll reads FRM_VALID, and the result follows the record's flags. -/
theorem hostNextPacket_result : Obligations.HostNextPacket := by
  refine ⟨?waits, ?takes, ?null, ?bytes, ?nonascii, ?text⟩
  case waits =>
    intro d c s hf
    simp [hostPoll, hf]
  case takes =>
    intro d c s r hf
    have htake : execFrmTake s = .next (clearFrm (deliverFrm r s)) := exec_frmTake_of_some hf
    simp [hostPoll, status_frmValid, hf, htake, clearFrm, deliverFrm]
  case null =>
    intro d c r he
    simp [hostNextPacket, he]
  case bytes =>
    intro c r he
    simp [hostNextPacket, he]
  case nonascii =>
    intro r he hn
    simp [hostNextPacket, he, hn]
  case text =>
    intro c r he hn
    simp [hostNextPacket, he, hn, asciiText]

/-! ### An rx byte that waits (R120, R191) -/

/-- While a record waits in FRM the rx source has nothing to run. -/
theorem readyInstr_rxSource_of_pending {s : State} (hf : s.frm ≠ none) : s.readyInstr .rxSource = none := by
  rw [readyInstr_eq_none]
  intro u hu
  obtain ⟨b, -, rfl⟩ := Option.map_eq_some_iff.1 hu
  exact Bool.eq_false_iff.2 (hf ∘ (rxReady_eq_true s).1)

theorem allWait_pending_rxSource {s : State} (hf : s.frm ≠ none) : s.allWait [] [.once .rxSource] :=
  ⟨(mustWait_once ..).2 (.inr (readyInstr_eq_none.1 (readyInstr_rxSource_of_pending hf))), trivial⟩

/-- While a record waits in FRM no step takes a byte off the rx port. -/
theorem step_keeps_stalled_rxIn {s t : State} (hf : s.frm ≠ none) (h : step s = .next t) : t.rxIn = s.rxIn := by
  rcases step_next_cases h with rfl | ⟨ts, _, rfl⟩ | ⟨ts, x, i, _, _, hi, rfl⟩
  · rfl
  · rfl
  · have hx : turnAgent x ≠ .rxSource := by
      intro hx
      rw [hx, readyInstr_rxSource_of_pending hf] at hi
      cases hi
    rw [effectOf_rxIn, takeOffer_rxIn hx, setTurns_rxIn]

/-- Settles O26: the rx source's waiting turn is passed over; once FRM is empty it is the first that can move. -/
theorem rxStallsWhilePending : Obligations.RxStallsWhilePending := by
  refine ⟨fun b s => exec_rxByte_of_pending b, fun s t hf h => ⟨step_keeps_stalled_rxIn hf h, fun rest ht =>
    waiting_front_stays (pre := [.once .rxSource]) (allWait_pending_rxSource hf) ht h⟩, ?take, ?reset⟩
  case take =>
    intro s r b bs rest ht hr hf
    obtain ⟨-, -, takes, -⟩ :=
      stepTakesOffer s [.once .rxSource] rest (allWait_pending_rxSource (by simp [hf]))
    obtain ⟨-, runs, -⟩ :=
      stepTakesOffer (clearFrm (deliverFrm r (setTurns (.once .rxSource :: rest) s))) [] rest trivial
    exact run_two ((takes r ht hf).trans (exec_frmTake_of_some hf)) (runs b bs rfl hr rfl)
  case reset =>
    intro s b bs rest ht hr hf
    obtain ⟨-, -, -, -, resets, -⟩ := stepTakesOffer s [.once .rxSource] rest (allWait_pending_rxSource hf)
    obtain ⟨-, runs, -⟩ := stepTakesOffer (resetBlock (setTurns (.once .rxSource :: rest) s)) [] rest trivial
    exact run_two (resets ht) (runs b bs rfl hr rfl)

end Sys2Proof.Machine
end

section
/-! PROOFS. The family of spec/42_frame_decoder.md, its state machine: the transition table (R127), what every instruction
keeps (R130, R131, R136), and whole frames (R128, R132). -/

namespace Sys2Proof.Machine

/-! ### The packet boundary state machine (R127) -/

theorem decoderState_eq_pending (s : State) : s.decoderState = .pending ↔ s.frm ≠ none := by
  unfold State.decoderState
  cases s.frm with
  | some r => simp
  | none => simp only; split_ifs <;> simp

/-- With FRM none the state's name is read off HEAD_SEEN and ACC. -/
theorem decoderState_of_none {s : State} (hf : s.frm = none) :
    (s.decoderState = .accum ↔ s.headSeen = true) ∧
    (s.decoderState = .loose ↔ s.headSeen = false ∧ s.acc ≠ []) ∧
    (s.decoderState = .idle ↔ s.headSeen = false ∧ s.acc = []) := by
  unfold State.decoderState
  rw [hf]
  cases s.headSeen <;> cases s.acc <;> simp

/-- A payload byte leaves ACC not empty, kept or dropped, since ACC_CAP is positive. -/
theorem payloadBranch_acc_ne_nil (b : Byte) (s : State) : (payloadBranch Config.accCap b s).acc ≠ [] := by
  rcases payloadBranch_cases Config.accCap b s with ⟨_, e⟩ | ⟨hfull, e⟩ <;> rw [e]
  · simp
  · exact List.ne_nil_of_length_pos (accCap_pos.trans_le hfull)

/-- Settles O28: one clause per branch of rx.byte, the names of the states read off their elements. -/
theorem decoderTransitions : Obligations.DecoderTransitions := by
  intro s t b hf h
  rw [exec_rxByte_of_none b hf] at h
  cases h
  obtain ⟨accum, loose, idle⟩ := decoderState_of_none hf
  refine ⟨fun hb => ?head, fun hb hl => ?tail, fun hb hl => ?payload⟩
  case head =>
    rw [rxBranch_of_head hb]
    exact ⟨(decoderState_of_none (s := headBranch s) hf).1.2 rfl, rfl⟩
  case tail =>
    rw [rxBranch_of_tail hb hl]
    refine ⟨rfl, mkframe s, rfl, ?_, rfl, fun hi => ?_, fun hi => ?_⟩
    · simp [mkframe, accum]
    · simp [mkframe, (idle.1 hi).2]
    · simp [mkframe, (loose.1 hi).2]
  case payload =>
    rw [rxBranch_of_payload hb hl]
    obtain ⟨accum', loose', -⟩ :=
      decoderState_of_none (s := payloadBranch Config.accCap b s) ((payloadBranch_frm ..).trans hf)
    rw [accum', loose', payloadBranch_headSeen, accum]
    have hne := payloadBranch_acc_ne_nil b s
    exact ⟨fun hi => ⟨(idle.1 hi).1, hne⟩, fun hi => ⟨(loose.1 hi).1, hne⟩, id⟩

/-- Settles O29: in PENDING the invariant leaves ACC empty and HEAD_SEEN clear, so that emptying FRM leads to IDLE. -/
theorem decoderTransitionsByOthers : Obligations.DecoderTransitionsByOthers := by
  refine ⟨fun s t hwf hp h => ?take, fun s t h => ?reset, fun w s t h => ?command⟩
  case take =>
    rw [decoderState_eq_pending] at hp
    obtain ⟨r, hr⟩ := Option.ne_none_iff_exists'.1 hp
    rw [exec_frmTake_of_some hr] at h
    cases h
    obtain ⟨hacc, -, hseen⟩ := hwf.pending_clear hp
    exact (decoderState_of_none (s := clearFrm (deliverFrm r s)) rfl).2.2.2 ⟨hseen, hacc⟩
  case reset => cases h; rfl
  case command =>
    obtain ⟨hacc, -, hseen, hfrm⟩ := exec_host_decoder (decodeCmd_agent w) h
    simp only [State.decoderState, hacc, hseen, hfrm]

/-! ### What every instruction keeps (R130, R131, R136) -/

/-- What each of these instructions keeps, all of them one after another keep. -/
theorem execAll_keeps {P : State → Prop} {is : List Instr}
    (hP : ∀ i ∈ is, ∀ s t, P s → exec i s = .next t → P t) {s t : State} (hs : P s) (h : execAll is s = .next t) :
    P t := by
  induction is generalizing s with
  | nil => cases h; exact hs
  | cons i is ih =>
    obtain ⟨u, hu⟩ := exec_answers_next i s
    simp only [execAll, hu] at h
    exact ih (fun j hj => hP j (List.mem_cons_of_mem i hj)) (hP i List.mem_cons_self s u hs hu) h

/-- With equal markers the tail branch is never taken, since the head is judged first (R121). -/
theorem rxBranch_frm_of_equalMarkers {s : State} (cap : Nat) (b : Byte) (hm : s.head = s.tail) :
    (rxBranch cap b s).frm = s.frm := by
  rcases rxBranch_cases cap b s with ⟨_, e⟩ | ⟨hb, hl, _⟩ | ⟨_, _, e⟩
  · rw [e, headBranch_frm]
  · exact absurd (hl.trans hm.symm) hb
  · rw [e, payloadBranch_frm]

/-- Equal markers, no record in FRM and the records delivered as they were (R130). -/
structure NothingLatched (out : List FrameRecord) (s : State) : Prop where
  markers : s.head = s.tail
  frm : s.frm = none
  frmOut : s.frmOut = out

theorem exec_nothingLatched {out : List FrameRecord} {i : Instr} {s t : State} (hr : i ≠ .reset)
    (hm : ∀ h l, i ≠ .setMarkers h l) (hs : NothingLatched out s) (h : exec i s = .next t) : NothingLatched out t := by
  obtain ⟨hmarkers, hfrm, hout⟩ := hs
  rcases decoder_next_cases hm h with ⟨hd, ho⟩ | ⟨b, _, rfl⟩ | ⟨r, hf, _⟩ | ⟨he, _⟩
  · exact ⟨by rw [hd.head, hd.tail, hmarkers], hd.frm.trans hfrm, ho.trans hout⟩
  · refine ⟨?_, (rxBranch_frm_of_equalMarkers _ b hmarkers).trans hfrm, (rxBranch_frmOut ..).trans hout⟩
    rw [rxBranch_head, rxBranch_tail, hmarkers]
  · rw [hfrm] at hf
    cases hf
  · exact absurd he hr

/-- Settles O32: an invariant of every instruction that writes no marker and is no reset. -/
theorem equalMarkersLatchNothing : Obligations.EqualMarkersLatchNothing := by
  intro s t is hmarkers hfrm his h
  have ht := execAll_keeps (fun i hi u v => exec_nothingLatched (his i hi).1 (his i hi).2) ⟨hmarkers, hfrm, rfl⟩ h
  exact ⟨ht.frm, ht.frmOut, fun b => (rxReady_eq_true t).2 ht.frm⟩

/-- Settles O33: rx.byte appends none but a byte that is no marker, and latches ACC itself. -/
theorem payloadHoldsNoMarker : Obligations.PayloadHoldsNoMarker := by
  rintro s t i hm ⟨hhead, htail⟩ h
  rcases decoder_next_cases hm h with ⟨hd, -⟩ | ⟨b, hf, rfl⟩ | ⟨r, hf, rfl⟩ | ⟨-, rfl⟩
  · refine ⟨?_, fun r hs ht => ?_⟩
    · rw [hd.head, hd.tail, hd.acc]
      exact ⟨hhead, htail⟩
    · rw [hd.frm, hs] at ht
      cases ht
  · rw [rxBranch_head, rxBranch_tail]
    rcases rxBranch_cases Config.accCap b s with ⟨_, e⟩ | ⟨_, _, e⟩ | ⟨hb, hl, e⟩ <;> rw [e]
    · simp [hf]
    · simp [hhead, htail]
    · refine ⟨?_, by simp [hf]⟩
      rcases payloadBranch_cases Config.accCap b s with ⟨_, e⟩ | ⟨_, e⟩ <;> rw [e]
      · simp [hhead, htail, hb.symm, hl.symm]
      · exact ⟨hhead, htail⟩
  · exact ⟨⟨hhead, htail⟩, by simp⟩
  · exact ⟨by simp, by simp⟩

/-- The branches of rx.byte read and write the decoder's elements alone (R51). -/
theorem rxBranch_sameDecoder {s t : State} (cap : Nat) (b : Byte) (hd : SameDecoder s t) :
    SameDecoder (rxBranch cap b s) (rxBranch cap b t) := by
  obtain ⟨hhead, htail, hacc, hovf, hseen, hfrm⟩ := hd
  unfold rxBranch
  rw [hhead, htail]
  split_ifs
  · exact ⟨hhead, htail, rfl, rfl, rfl, hfrm⟩
  · refine ⟨hhead, htail, rfl, rfl, rfl, ?_⟩
    simp [mkframe, hacc, hovf, hseen]
  · unfold payloadBranch
    rw [hacc]
    split_ifs
    · exact ⟨hhead, htail, rfl, hovf, hseen, hfrm⟩
    · exact ⟨hhead, htail, rfl, rfl, hseen, hfrm⟩

theorem exec_rxByte_keeps_sameDecoder {s1 s2 t1 t2 : State} {b : Byte} (hd : SameDecoder s1 s2)
    (h1 : exec (.rxByte b) s1 = .next t1) (h2 : exec (.rxByte b) s2 = .next t2) : SameDecoder t1 t2 := by
  by_cases hf : s1.frm = none
  · rw [exec_rxByte_of_none b hf] at h1
    rw [exec_rxByte_of_none b (hd.frm.trans hf)] at h2
    cases h1
    cases h2
    exact rxBranch_sameDecoder _ b hd
  · rw [exec_rxByte_of_pending b hf] at h1
    rw [exec_rxByte_of_pending b (hd.frm ▸ hf)] at h2
    cases h1
    cases h2
    exact hd

/-- Settles O51: byte by byte. -/
theorem decoderIgnoresEncoder : Obligations.DecoderIgnoresEncoder := by
  intro bs
  induction bs with
  | nil =>
    intro s1 s2 t1 t2 hd h1 h2
    cases h1
    cases h2
    exact hd
  | cons b bs ih =>
    intro s1 s2 t1 t2 hd h1 h2
    obtain ⟨u1, e1⟩ := exec_answers_next (.rxByte b) s1
    obtain ⟨u2, e2⟩ := exec_answers_next (.rxByte b) s2
    simp only [List.map_cons, execAll, e1] at h1
    simp only [List.map_cons, execAll, e2] at h2
    exact ih u1 u2 t1 t2 (exec_rxByte_keeps_sameDecoder hd e1 e2) h1 h2

/-! ### Whole frames (R128, R132) -/

/-- The state with ACC and ACC_OVF as the payload bytes `a` leave them, received since the last clear (R124), and with
HEAD_SEEN. -/
def holding (a : List Byte) (seen : Bool) (s : State) : State :=
  { s with acc := a.take Config.accCap, accOvf := decide (Config.accCap < a.length), headSeen := seen }

/-- Where ACC is empty and ACC_OVF is 0 no payload byte is held. -/
theorem holding_nil {s : State} (hacc : s.acc = []) (hovf : s.accOvf = false) : holding [] s.headSeen s = s := by
  cases s
  cases hacc
  cases hovf
  simp [holding]

/-- A head byte starts the accumulator anew, whatever it held (R122). -/
theorem headBranch_eq_holding (s : State) : headBranch s = holding [] true s := by
  simp [headBranch, holding]

theorem holding_of_fits {a : List Byte} (hfits : a.length ≤ Config.accCap) (seen : Bool) (s : State) :
    holding a seen s = { s with acc := a, accOvf := false, headSeen := seen } := by
  rw [holding, List.take_of_length_le hfits, decide_eq_false (Nat.not_lt.2 hfits)]

/-- A payload byte is one more byte held: kept while there is room, else counted by ACC_OVF alone (R124). -/
theorem payloadBranch_holding (a : List Byte) (seen : Bool) (b : Byte) (s : State) :
    payloadBranch Config.accCap b (holding a seen s) = holding (a ++ [b]) seen s := by
  by_cases hroom : a.length < Config.accCap
  · have hkept : (a ++ [b]).length ≤ Config.accCap := by simpa using hroom
    rw [holding_of_fits hroom.le, holding_of_fits hkept, payloadBranch, if_pos hroom]
  · have hfull : Config.accCap ≤ a.length := Nat.not_lt.1 hroom
    simp [payloadBranch, holding, hfull, List.take_append_of_le_length, Nat.lt_succ_of_le hfull]

theorem execAll_rxBytes_cons {s : State} (b : Byte) (bs : List Byte) (hf : s.frm = none) :
    execAll ((b :: bs).map .rxByte) s = execAll (bs.map .rxByte) (rxBranch Config.accCap b s) := by
  rw [List.map_cons, execAll, exec_rxByte_of_none b hf]

/-- A head byte of the stream: the bytes behind it find the accumulator anew. -/
theorem execAll_head_cons {b : Byte} {s : State} (bs : List Byte) (hf : s.frm = none) (hb : b = s.head) :
    execAll ((b :: bs).map .rxByte) s = execAll (bs.map .rxByte) (holding [] true s) := by
  rw [execAll_rxBytes_cons b bs hf, rxBranch_of_head hb, headBranch_eq_holding]

/-- A payload byte of the stream: the bytes behind it find it held. -/
theorem execAll_payload_cons {b : Byte} {s : State} (a : List Byte) (seen : Bool) (bs : List Byte) (hf : s.frm = none)
    (hb : b ≠ s.head) (hl : b ≠ s.tail) :
    execAll ((b :: bs).map .rxByte) (holding a seen s) = execAll (bs.map .rxByte) (holding (a ++ [b]) seen s) := by
  rw [execAll_rxBytes_cons (s := holding a seen s) b bs hf, rxBranch_of_payload (s := holding a seen s) hb hl,
    payloadBranch_holding]

/-- Bytes that are no markers are held one after another. -/
theorem execAll_payload {p : List Byte} (a : List Byte) (seen : Bool) {s : State} (hf : s.frm = none)
    (hhead : s.head ∉ p) (htail : s.tail ∉ p) :
    execAll (p.map .rxByte) (holding a seen s) = .next (holding (a ++ p) seen s) := by
  induction p generalizing a with
  | nil => rw [List.append_nil]; rfl
  | cons b p ih =>
    rw [List.mem_cons, not_or] at hhead htail
    rw [execAll_payload_cons a seen p hf (Ne.symm hhead.1) (Ne.symm htail.1), ih _ hhead.2 htail.2, ← List.append_cons]

/-- A head and a payload leave the payload held, whatever was held before (R122, R124). -/
theorem execAll_head_payload {p : List Byte} {s : State} (hf : s.frm = none) (hhead : s.head ∉ p) (htail : s.tail ∉ p) :
    execAll ((s.head :: p).map .rxByte) s = .next (holding p true s) :=
  (execAll_head_cons p hf rfl).trans (execAll_payload [] true hf hhead htail)

/-- A tail byte behind other rx bytes latches the record of the state they leave (R123). -/
theorem execAll_then_tail {bs : List Byte} {l : Byte} {s u : State} (h : execAll (bs.map .rxByte) s = .next u)
    (hf : u.frm = none) (hl : l = u.tail) (hne : u.tail ≠ u.head) :
    execAll ((bs ++ [l]).map .rxByte) s = .next (tailBranch u) := by
  subst hl
  rw [List.map_append, execAll_append _ _ s u h]
  exact (execAll_rxBytes_cons u.tail [] hf).trans (congrArg Host.Outcome.next (rxBranch_of_tail hne rfl))

/-- The record of a payload within ACC_CAP holds the payload whole. -/
theorem mkframe_holding_payload {p : List Byte} (hfits : p.length ≤ Config.accCap) (seen : Bool) (s : State) :
    (mkframe (holding p seen s)).payload = p :=
  List.take_of_length_le hfits

/-- Settles O30: the payload is held whole, because it is within ACC_CAP, and the tail latches it. -/
theorem framingIdempotence : Obligations.FramingIdempotence := by
  intro s p hf hne hp hfits hhead htail
  have hpayload := mkframe_holding_payload hfits true s
  refine ⟨_, mkframe (holding p true s), execAll_then_tail (execAll_head_payload hf hhead htail) hf rfl hne.symm, rfl,
    hpayload, ?len, ?empty, rfl, decide_eq_false (Nat.not_lt.2 hfits), congrArg nonasciiOf hpayload, rfl⟩
  case len =>
    have hlen : (holding p true s).acc.length = p.length := congrArg List.length hpayload
    rw [mkframe, hlen]
    exact toNat_ofNat_of_le_accCap hfits
  case empty => exact (congrArg List.isEmpty hpayload).trans (List.isEmpty_eq_false_iff.2 hp)

/-- Settles O31: the second head discards `x` as the first discards what was held before it. -/
theorem repeatedHeadResets : Obligations.RepeatedHeadResets := by
  intro s x y hf hne hfits hxh hxt hyh hyt
  have hxy : execAll ((s.head :: x ++ s.head :: y).map .rxByte) s = .next (holding y true s) := by
    rw [List.map_append, execAll_append _ _ _ _ (execAll_head_payload hf hxh hxt)]
    exact execAll_head_payload (s := holding x true s) hf hyh hyt
  exact ⟨_, mkframe (holding y true s), execAll_then_tail hxy hf rfl hne.symm, rfl,
    mkframe_holding_payload hfits true s⟩

end Sys2Proof.Machine
end

section
/-! PROOFS. The family of spec/42_frame_decoder.md, against the source's decoder: the frame stream that every step
conserves, one call of the source, and a whole stream from reset (R134, R135, R194). -/

namespace Sys2Proof.Machine

/-! ### The frame stream (R134) -/

/-- The payloads the source's decoder will emit on the bytes on offer, from the accumulator as it is. -/
def State.packets (s : State) : List (List Byte) := sourcePackets s.head s.tail s.acc s.rxIn

theorem framesFit_iff (s : State) : s.framesFit = true ↔ ∀ p ∈ s.packets, p.length ≤ Config.accCap := by
  simp [State.framesFit, sourceFits, State.packets]

theorem frameStream_eq (d : Bool) (c : NonAsciiChoice) (s : State) :
    s.frameStream d c = s.frmOut.map (hostNextPacket d c) ++ s.frm.toList.map (hostNextPacket d c)
      ++ s.packets.map (sourceResult d c) := rfl

/-- Where the bytes before the next marker are already longer than any payload to come, that marker is no tail, and what
the accumulator holds does not matter. -/
theorem sourcePackets_of_overlong {cap : Nat} {h l : Byte} (acc acc' : List Byte) {bs : List Byte}
    (hlong : cap < acc.length) (hfit : ∀ p ∈ sourcePackets h l acc bs, p.length ≤ cap) :
    sourcePackets h l acc bs = sourcePackets h l acc' bs := by
  induction bs generalizing acc acc' with
  | nil => rfl
  | cons b bs ih =>
    simp only [sourcePackets] at hfit ⊢
    split_ifs at hfit ⊢ with hhead htail
    · rfl
    · exact absurd (hfit acc List.mem_cons_self) (by omega)
    · exact ih _ _ (by rw [List.length_append]; omega) hfit

/-- The host routine returns for a record latched at a tail what the source returns for its payload (R133). -/
theorem hostNextPacket_mkframe (d : Bool) (c : NonAsciiChoice) (s : State) :
    hostNextPacket d c (mkframe s) = sourceResult d c s.acc := by
  rw [mkframe]
  cases s.acc <;> rfl

/-- rx.byte leaves the payloads to come, but for the payload of the record it latches. A byte that ACC has no room for
makes no difference, because a head discards it. -/
theorem rxBranch_packets {s : State} {b : Byte} {bs : List Byte} (hr : s.rxIn = b :: bs) (hf : s.frm = none)
    (hfit : s.framesFit = true) :
    s.packets = (rxBranch Config.accCap b { s with rxIn := bs }).frm.toList.map FrameRecord.payload
      ++ (rxBranch Config.accCap b { s with rxIn := bs }).packets := by
  rw [framesFit_iff] at hfit
  rcases rxBranch_cases Config.accCap b { s with rxIn := bs } with
    ⟨hb, e⟩ | ⟨hb, hl, e⟩ | ⟨hb, hl, e⟩ <;> rw [e]
  · simp [State.packets, hr, sourcePackets, hb, hf]
  · simp only at hb hl
    subst hl
    simp [State.packets, hr, sourcePackets, hb, mkframe]
  · simp only at hb hl
    have hsource : s.packets = sourcePackets s.head s.tail (s.acc ++ [b]) bs := by
      simp [State.packets, hr, sourcePackets, hb, hl]
    rw [hsource] at hfit ⊢
    rcases payloadBranch_cases Config.accCap b { s with rxIn := bs } with ⟨_, e⟩ | ⟨hfull, e⟩ <;> rw [e]
    · simp [State.packets, hf]
    · have hlong : Config.accCap < (s.acc ++ [b]).length := by
        rw [List.length_append, List.length_singleton]
        exact Nat.lt_succ_of_le hfull
      simpa [State.packets, hf] using sourcePackets_of_overlong _ s.acc hlong hfit

/-- A record latched by rx.byte is one the host reads as the source reads its payload. -/
theorem rxBranch_frm_hostNextPacket (d : Bool) (c : NonAsciiChoice) {s : State} {b : Byte} (hf : s.frm = none) :
    (rxBranch Config.accCap b s).frm.toList.map (hostNextPacket d c) =
      ((rxBranch Config.accCap b s).frm.toList.map FrameRecord.payload).map (sourceResult d c) := by
  rcases rxBranch_cases Config.accCap b s with ⟨_, e⟩ | ⟨_, _, e⟩ | ⟨_, _, e⟩ <;> rw [e]
  · simp [hf]
  · simp [hostNextPacket_mkframe]
  · simp [hf]

/-- The frames still to come after an rx byte are among those that were to come before it. -/
theorem rxBranch_framesFit {s : State} {b : Byte} {bs : List Byte} (hr : s.rxIn = b :: bs) (hf : s.frm = none)
    (hfit : s.framesFit = true) : (rxBranch Config.accCap b { s with rxIn := bs }).framesFit = true := by
  have hpackets := rxBranch_packets hr hf hfit
  rw [framesFit_iff] at hfit ⊢
  exact fun p hp => hfit p (hpackets ▸ List.mem_append_right _ hp)

/-- The two states stand for the same results, and the frames to come fit in the second too. -/
def KeepsFrameStream (d : Bool) (c : NonAsciiChoice) (s t : State) : Prop :=
  t.frameStream d c = s.frameStream d c ∧ t.framesFit = true

/-- The frame stream is a matter of the decoder, the bytes on offer and the records taken alone. -/
theorem keepsFrameStream_of_sameDecoder (d : Bool) (c : NonAsciiChoice) {s t : State} (hd : SameDecoder s t)
    (hr : t.rxIn = s.rxIn) (ho : t.frmOut = s.frmOut) (hfit : s.framesFit = true) : KeepsFrameStream d c s t := by
  obtain ⟨hhead, htail, hacc, -, -, hfrm⟩ := hd
  constructor
  · simp [State.frameStream, hhead, htail, hacc, hfrm, hr, ho]
  · rwa [State.framesFit, hhead, htail, hacc, hr]

theorem keepsFrameStream_of_rxByte (d : Bool) (c : NonAsciiChoice) {s : State} {b : Byte} {bs : List Byte}
    (hr : s.rxIn = b :: bs) (hf : s.frm = none) (hfit : s.framesFit = true) :
    KeepsFrameStream d c s (rxBranch Config.accCap b { s with rxIn := bs }) := by
  refine ⟨?_, rxBranch_framesFit hr hf hfit⟩
  rw [frameStream_eq, frameStream_eq, rxBranch_packets hr hf hfit,
    rxBranch_frm_hostNextPacket d c (s := { s with rxIn := bs }) hf]
  simp [hf]

/-- Taking the record moves its result from FRM to the end of those delivered. -/
theorem keepsFrameStream_of_frmTake (d : Bool) (c : NonAsciiChoice) {s : State} {r : FrameRecord} (hf : s.frm = some r)
    (hfit : s.framesFit = true) : KeepsFrameStream d c s (clearFrm (deliverFrm r s)) := by
  refine ⟨?_, hfit⟩
  simp [State.frameStream, hf]

/-- The commands but SET_MARKERS, and tx.take, leave the decoder and so the frame stream. -/
theorem keepsFrameStream_of_effectOf (d : Bool) (c : NonAsciiChoice) {i : Instr} {s : State}
    (hi : i.agent = .host ∨ i.agent = .txSink) (hm : ∀ h l, i ≠ .setMarkers h l) (he : enabled i s = true)
    (hfit : s.framesFit = true) : KeepsFrameStream d c s (effectOf i s) := by
  obtain ⟨hd, ho⟩ := exec_sameDecoder hi hm (exec_of_enabled i s he)
  exact keepsFrameStream_of_sameDecoder d c hd (effectOf_rxIn i s) ho hfit

/-- A step that runs no reset event and no SET_MARKERS conserves the frame stream. -/
theorem step_keepsFrameStream (d : Bool) (c : NonAsciiChoice) {s t : State} (hno : s.noResetTurn)
    (hk : s.keepsMarkers) (hfit : s.framesFit = true) (h : step s = .next t) : KeepsFrameStream d c s t := by
  rcases step_next_cases h with rfl | ⟨ts, _, rfl⟩ | ⟨ts, x, i, _, hx, hi, rfl⟩
  · exact ⟨rfl, hfit⟩
  · exact ⟨rfl, hfit⟩
  · obtain ⟨he, ⟨w, ha, hw, rfl⟩ | ⟨b, ha, hb, rfl, hf⟩ | ⟨r, ha, hf, rfl⟩ | ⟨b, ha, -, rfl⟩ | ⟨ha, -⟩⟩ :=
      readyInstr_shape hi <;> rw [← enabled_takeOffer _ (turnAgent x) ts] at he
    · rw [ha] at he ⊢
      exact keepsFrameStream_of_effectOf d c (s := takeOffer .host (setTurns ts s)) (.inl (decodeCmd_agent w))
        (hk w (List.mem_of_head? hw)) he hfit
    · obtain ⟨bs, hr⟩ := List.head?_eq_some_iff.1 hb
      rw [ha, takeOffer_rxSource_of_cons (s := setTurns ts s) hr]
      exact keepsFrameStream_of_rxByte d c (s := setTurns ts s) hr hf hfit
    · rw [ha, takeOffer_frameSink, effectOf_frmTake_of_some (s := setTurns ts s) hf]
      exact keepsFrameStream_of_frmTake d c (s := setTurns ts s) hf hfit
    · rw [ha] at he ⊢
      exact keepsFrameStream_of_effectOf d c (s := setTurns ts s) (.inr rfl) nofun he hfit
    · cases x with
      | once a => cases ha; exact absurd hx hno
      | drain => cases ha

/-- No step puts a command on offer. -/
theorem step_keepsMarkers {s t : State} (hk : s.keepsMarkers) (h : step s = .next t) : t.keepsMarkers := by
  rcases step_next_cases h with rfl | ⟨ts, _, rfl⟩ | ⟨ts, x, i, _, _, _, rfl⟩
  · exact hk
  · exact hk
  · intro w hw
    rw [effectOf_cmdIn] at hw
    by_cases hx : turnAgent x = .host
    · rw [hx, takeOffer_host_cmdIn] at hw
      exact hk w (List.mem_of_mem_drop hw)
    · rw [takeOffer_cmdIn hx] at hw
      exact hk w hw

/-- Settles O53: what every step keeps, every run keeps. -/
theorem frameStreamConserved : Obligations.FrameStreamConserved := by
  intro d c k s t hno hk hfit h
  have hkeep : ∀ u v : State, (u.noResetTurn ∧ u.keepsMarkers) ∧ KeepsFrameStream d c s u → step u = .next v →
      (v.noResetTurn ∧ v.keepsMarkers) ∧ KeepsFrameStream d c s v := by
    rintro u v ⟨⟨hu, hku⟩, hstream, hfits⟩ huv
    obtain ⟨hstream', hfits'⟩ := step_keepsFrameStream d c hu hku hfits huv
    exact ⟨⟨step_noResetTurn hu huv, step_keepsMarkers hku huv⟩, hstream'.trans hstream, hfits'⟩
  exact (run_keeps hkeep k s t ⟨⟨hno, hk⟩, rfl, hfit⟩ h).2

/-! ### One call of the source (R134, R135) -/

/-- The bytes of the source's call but the last, run as rx.byte, leave the call's payload held; the last is the tail. -/
theorem execAll_sourceCall {stream p rest : List Byte} (a : List Byte) (seen : Bool) {s : State} (hf : s.frm = none)
    (h : sourceCall s.head s.tail a stream = some (p, rest)) :
    s.tail ≠ s.head ∧ ∃ taken seen', stream = taken ++ s.tail :: rest ∧
      execAll (taken.map .rxByte) (holding a seen s) = .next (holding p seen' s) := by
  induction stream generalizing a seen with
  | nil => cases h
  | cons b bs ih =>
    rw [sourceCall] at h
    split_ifs at h with hb hl
    · obtain ⟨hne, taken, seen', rfl, hrun⟩ := ih [] true h
      exact ⟨hne, b :: taken, seen', rfl, (execAll_head_cons (s := holding a seen s) taken hf hb).trans hrun⟩
    · cases h
      subst hl
      exact ⟨hb, [], seen, rfl, rfl⟩
    · obtain ⟨hne, taken, seen', rfl, hrun⟩ := ih (a ++ [b]) seen h
      exact ⟨hne, b :: taken, seen', rfl, (execAll_payload_cons a seen taken hf hb hl).trans hrun⟩

/-- A call that blocks has seen no tail byte, and no record is latched, whatever the accumulators hold (R135). -/
theorem execAll_sourceCall_blocks {stream : List Byte} (a : List Byte) {s t : State} (hf : s.frm = none)
    (h : sourceCall s.head s.tail a stream = none) (hrun : execAll (stream.map .rxByte) s = .next t) :
    t.frm = none := by
  induction stream generalizing a s with
  | nil => cases hrun; exact hf
  | cons b bs ih =>
    rw [execAll_rxBytes_cons b bs hf] at hrun
    rw [sourceCall] at h
    split_ifs at h with hb hl
    · rw [rxBranch_of_head hb] at hrun
      exact ih (s := headBranch s) [] hf h hrun
    · rw [rxBranch_of_payload hb hl] at hrun
      exact ih (a ++ [b]) ((payloadBranch_frm ..).trans hf) (by rwa [payloadBranch_head, payloadBranch_tail]) hrun

/-- Settles O60: the tail byte latches what the call's bytes before it left held. -/
theorem nextPacketAgrees : Obligations.NextPacketAgrees := by
  refine ⟨fun d c s stream p rest hf hacc hovf hcall => ?_, fun s t stream => execAll_sourceCall_blocks []⟩
  obtain ⟨hne, taken, seen, hstream, hrun⟩ := execAll_sourceCall [] s.headSeen hf hcall
  rw [holding_nil hacc hovf] at hrun
  refine ⟨taken ++ [s.tail], _, mkframe (holding p seen s), by simpa using hstream, List.getLast?_concat,
    execAll_then_tail hrun hf rfl hne, rfl, rfl, rfl, rfl, rfl, fun hfits => ?_⟩
  rw [hostNextPacket_mkframe]
  exact congrArg (sourceResult d c) (mkframe_holding_payload hfits seen s)

/-! ### A whole stream from reset (R134, R194) -/

/-- How many records the frame sink has still to take: the one in FRM and those of the frames to come. -/
def State.recordsDue (s : State) : Nat := s.frm.toList.length + s.packets.length

/-- Turns of the rx source and the frame sink alone are due, enough for the bytes on offer and the records they make,
and no frame to come is too long. -/
structure EnoughTurns (s : State) : Prop where
  alone : ∀ x ∈ s.turns, x = .once .rxSource ∨ x = .once .frameSink
  bytes : s.rxIn.length ≤ s.turns.count (.once .rxSource)
  records : s.recordsDue ≤ s.turns.count (.once .frameSink)
  fits : s.framesFit = true

/-- Turns of agents that have nothing to run all wait. -/
theorem allWait_of_notReady {s : State} {ts : List Turn} (w : List Agent)
    (h : ∀ x ∈ ts, ∃ a, x = .once a ∧ s.readyInstr a = none) : s.allWait w ts := by
  induction ts generalizing w with
  | nil => trivial
  | cons x ts ih =>
    obtain ⟨a, rfl, ha⟩ := h x List.mem_cons_self
    exact ⟨(mustWait_once ..).2 (.inr (readyInstr_eq_none.1 ha)), ih _ (fun y hy => h y (List.mem_cons_of_mem _ hy))⟩

/-- The first turn of an agent, where the other agents' turns have nothing to run. -/
theorem exists_first_turn {s : State} {a : Agent} (hmem : .once a ∈ s.turns)
    (hothers : ∀ x ∈ s.turns, x ≠ .once a → ∃ b, x = .once b ∧ s.readyInstr b = none) :
    ∃ pre post, s.turns = pre ++ .once a :: post ∧ s.allWait [] pre := by
  obtain ⟨pre, post, ht, hpre⟩ := List.eq_append_cons_of_mem hmem
  refine ⟨pre, post, ht, allWait_of_notReady [] fun x hx => hothers x ?_ (ne_of_mem_of_not_mem hx hpre)⟩
  rw [ht]
  exact List.mem_append_left _ hx

theorem readyInstr_frameSink_of_none {s : State} (hf : s.frm = none) : s.readyInstr .frameSink = none := by
  simp [State.readyInstr, State.unitFor, hf]

theorem readyInstr_rxSource_of_nil {s : State} (hr : s.rxIn = []) : s.readyInstr .rxSource = none := by
  simp [State.readyInstr, State.unitFor, hr]

/-- A turn taken is one turn less of its agent: enough are left for what that agent has left to take. -/
theorem EnoughTurns.after_turn {s u : State} {pre post : List Turn} {a : Agent} (he : EnoughTurns s)
    (ht : s.turns = pre ++ .once a :: post) (hu : u.turns = pre ++ post)
    (hbytes : u.rxIn.length + (if a = .rxSource then 1 else 0) = s.rxIn.length)
    (hrecords : u.recordsDue + (if a = .frameSink then 1 else 0) = s.recordsDue) (hfits : u.framesFit = true) :
    EnoughTurns u := by
  have hperm : s.turns.Perm (.once a :: u.turns) := by rw [ht, hu]; exact List.perm_middle
  have hcount (b : Agent) : s.turns.count (.once b) = u.turns.count (.once b) + if a = b then 1 else 0 := by
    simp [hperm.count_eq, List.count_cons]
  refine ⟨fun x hx => he.alone x (hperm.mem_iff.2 (List.mem_cons_of_mem _ hx)), ?_, ?_, hfits⟩
  · have := he.bytes
    rw [hcount] at this
    omega
  · have := he.records
    rw [hcount] at this
    omega

/-- With a record in FRM the frame sink's first turn is the one that moves. -/
theorem EnoughTurns.step_takes {s : State} {r : FrameRecord} (he : EnoughTurns s) (hf : s.frm = some r) :
    ∃ u, step s = .next u ∧ EnoughTurns u ∧ u.rxIn.length + u.recordsDue + 1 = s.rxIn.length + s.recordsDue := by
  have hone : s.recordsDue = 1 + s.packets.length := by rw [State.recordsDue, hf]; rfl
  have hmem : .once .frameSink ∈ s.turns := List.count_pos_iff.1 (by have := he.records; omega)
  obtain ⟨pre, post, ht, hwait⟩ := exists_first_turn hmem fun x hx hne =>
    ⟨.rxSource, (he.alone x hx).resolve_right hne, readyInstr_rxSource_of_pending (by simp [hf])⟩
  obtain ⟨-, -, takes, -⟩ := stepTakesOffer s pre post hwait
  have hrecords : (clearFrm (deliverFrm r (setTurns (pre ++ post) s))).recordsDue + 1 = s.recordsDue := by
    rw [hone, Nat.add_comm]
    exact congrArg (1 + ·) (Nat.zero_add _)
  exact ⟨_, (takes r ht hf).trans (exec_frmTake_of_some hf), he.after_turn ht rfl rfl hrecords he.fits,
    (Nat.add_assoc ..).trans (congrArg (s.rxIn.length + ·) hrecords)⟩

/-- A record latched was still to come before its tail byte. -/
theorem rxBranch_recordsDue {s : State} {b : Byte} {bs : List Byte} (hr : s.rxIn = b :: bs) (hf : s.frm = none)
    (hfit : s.framesFit = true) : (rxBranch Config.accCap b { s with rxIn := bs }).recordsDue = s.recordsDue := by
  simp [State.recordsDue, rxBranch_packets hr hf hfit, hf]

/-- With FRM none and a byte on offer the rx source's first turn is the one that moves. -/
theorem EnoughTurns.step_receives {s : State} {b : Byte} {bs : List Byte} (he : EnoughTurns s) (hf : s.frm = none)
    (hr : s.rxIn = b :: bs) :
    ∃ u, step s = .next u ∧ EnoughTurns u ∧ u.rxIn.length + u.recordsDue + 1 = s.rxIn.length + s.recordsDue := by
  have hone : s.rxIn.length = bs.length + 1 := by rw [hr, List.length_cons]
  have hmem : .once .rxSource ∈ s.turns := List.count_pos_iff.1 (by have := he.bytes; omega)
  obtain ⟨pre, post, ht, hwait⟩ := exists_first_turn hmem fun x hx hne =>
    ⟨.frameSink, (he.alone x hx).resolve_left hne, readyInstr_frameSink_of_none hf⟩
  obtain ⟨-, runs, -⟩ := stepTakesOffer s pre post hwait
  have hrecords : (rxBranch Config.accCap b { s with turns := pre ++ post, rxIn := bs }).recordsDue = s.recordsDue :=
    rxBranch_recordsDue (s := setTurns (pre ++ post) s) hr hf he.fits
  refine ⟨_, (runs b bs ht hr hf).trans (exec_rxByte_of_none b hf), he.after_turn ht (rxBranch_turns ..)
    (by rw [rxBranch_rxIn, hone]; rfl) hrecords (rxBranch_framesFit (s := setTurns (pre ++ post) s) hr hf he.fits), ?_⟩
  rw [hrecords, rxBranch_rxIn, hone]
  exact Nat.add_right_comm ..

/-- Where nothing is on offer and FRM is none every turn waits. -/
theorem EnoughTurns.step_holds {s : State} (he : EnoughTurns s) (hf : s.frm = none) (hr : s.rxIn = []) :
    step s = .next s := by
  refine step_of_allWait (allWait_of_notReady [] fun x hx => ?_)
  rcases he.alone x hx with rfl | rfl
  · exact ⟨_, rfl, readyInstr_rxSource_of_nil hr⟩
  · exact ⟨_, rfl, readyInstr_frameSink_of_none hf⟩

theorem run_succ_of_step {s u : State} (k : Nat) (h : step s = .next u) :
    Sys2Proof.core.run (k + 1) s = Sys2Proof.core.run k u := by
  have e : Sys2Proof.core.step s = .next u := h
  simp only [Host.Core.run, e]

/-- As many steps as there are bytes and records still to take, or more, consume the stream and leave FRM none. -/
theorem EnoughTurns.run_consumes {k : Nat} {s : State} (he : EnoughTurns s) (hk : s.rxIn.length + s.recordsDue ≤ k) :
    ∃ t, Sys2Proof.core.run k s = .next t ∧ t.rxIn = [] ∧ t.frm = none := by
  induction k generalizing s with
  | zero =>
    obtain ⟨hr, hf, -⟩ : s.rxIn = [] ∧ s.frm = none ∧ s.packets = [] := by simpa [State.recordsDue] using hk
    exact ⟨s, rfl, hr, hf⟩
  | succ k ih =>
    cases hf : s.frm with
    | some r =>
      obtain ⟨u, hu, he', hdue⟩ := he.step_takes hf
      rw [run_succ_of_step k hu]
      exact ih he' (by omega)
    | none =>
      cases hr : s.rxIn with
      | cons b bs =>
        obtain ⟨u, hu, he', hdue⟩ := he.step_receives hf hr
        rw [run_succ_of_step k hu]
        exact ih he' (by omega)
      | nil =>
        rw [run_succ_of_step k (he.step_holds hf hr)]
        exact ih he (by simp [State.recordsDue, State.packets, sourcePackets, hf, hr])

/-- The reset state with the markers `h` and `l`, a stream on offer and turns due. -/
def streamFromReset (h l : Byte) (stream : List Byte) (turns : List Turn) : State :=
  { State.reset with head := h, tail := l, rxIn := stream, turns := turns }

theorem recordsDue_streamFromReset (h l : Byte) (stream : List Byte) (turns : List Turn) :
    (streamFromReset h l stream turns).recordsDue = (sourcePackets h l [] stream).length :=
  Nat.zero_add _

theorem frameStream_streamFromReset (d : Bool) (c : NonAsciiChoice) (h l : Byte) (stream : List Byte)
    (turns : List Turn) :
    (streamFromReset h l stream turns).frameStream d c = (sourcePackets h l [] stream).map (sourceResult d c) := rfl

/-- Settles O54: the run consumes the stream, and the frame stream it conserves is all delivered. -/
theorem agreesWithSource : Obligations.AgreesWithSource := by
  intro d c h l stream turns k hfits halone hbytes hrecords hk
  rw [← recordsDue_streamFromReset h l stream turns] at hrecords hk
  have he : EnoughTurns (streamFromReset h l stream turns) := ⟨halone, hbytes, hrecords, hfits⟩
  obtain ⟨t, ht, hr, hf⟩ := he.run_consumes hk
  have hno : (streamFromReset h l stream turns).noResetTurn := fun hm => by rcases halone _ hm with e | e <;> cases e
  obtain ⟨hstream, -⟩ := frameStreamConserved d c k _ t hno nofun hfits ht
  refine ⟨t, ht, ?_, hr, hf⟩
  rw [frameStream_streamFromReset] at hstream
  simpa [State.frameStream, hr, hf, sourcePackets] using hstream

end Sys2Proof.Machine
end

section
/-! PROOFS. The family of spec/43_control.md: NOP, SET_MARKERS, SET_POLICY, CLEAR_ERR and BadCommand (R150 to R154). -/

namespace Sys2Proof.Machine

/-! ### BadCommand (R154) -/

/-- A word of R65's list has BadCommand's effect, whichever of its rows it breaks. -/
theorem exec_of_illegalEncoding {w : CmdWord} (h : illegalEncoding w) (s : State) :
    exec (decodeCmd w) s = .next (raiseBadCommand s) := by
  rw [decodeCmd_of_undefined ((illegalEncoding_iff w).1 h)]
  exact exec_of_enabled (.illegal w) s rfl

/-- The flag is sticky: BadCommand on a state that has it set leaves no trace (R154). -/
theorem raiseBadCommand_of_set {s : State} (h : s.errBadCmd = true) : raiseBadCommand s = s := by
  rw [raiseBadCommand, ← h]

/-- Settles O39: a word of R65's list is of no row, and raising a flag that is set changes nothing. -/
theorem badCommandResult : Obligations.BadCommandResult := by
  refine ⟨fun w s => ⟨rfl, ?effect⟩, fun w hw => ?word, fun w s hset => ?again⟩
  case effect => exact exec_of_enabled (.illegal w) s rfl
  case word => exact decodeCmd_of_undefined ((illegalEncoding_iff w).1 hw)
  case again => rw [exec_of_enabled (.illegal w) s rfl, effectOf, raiseBadCommand_of_set hset]

/-! ### The control commands (R150 to R153)

Each is always enabled and has its effect. NOP has no reserved bit; a word of the others with one set is on R65's list. -/

/-- Settles O35: NOP's effect is no effect, and R64 reads no operand bit of its opcode. -/
theorem nopResult : Obligations.NopResult := by
  refine ⟨fun s => ?effect, fun w hc => ?word⟩
  case effect => exact exec_of_enabled .nop s rfl
  case word => simp [decodeCmd, hc]

/-- Settles O36: the two markers are written, and a reserved bit puts the word on R65's list. -/
theorem setMarkersResult : Obligations.SetMarkersResult := by
  refine ⟨fun h l s => ?effect, fun w hc hr => ?word, fun w s hc hr => ?reserved⟩
  case effect => exact exec_of_enabled (.setMarkers h l) s rfl
  case word => simp [decodeCmd, hc, hr]
  case reserved => exact exec_of_illegalEncoding (.inr (.inl ⟨hc, hr⟩)) s

/-- Settles O37: POLICY is written, and a reserved bit puts the word on R65's list. -/
theorem setPolicyResult : Obligations.SetPolicyResult := by
  refine ⟨fun p s => ?effect, fun w hc hr => ?word, fun w s hc hr => ?reserved⟩
  case effect => exact exec_of_enabled (.setPolicy p) s rfl
  case word => simp [decodeCmd, hc, hr, policyOfBit]
  case reserved => exact exec_of_illegalEncoding (.inr (.inr (.inl ⟨hc, hr⟩))) s

/-- CLEAR_ERR's effect, flag by flag (R153). -/
theorem clearErrFlags_eq_ite (cv cb : Bool) (s : State) : clearErrFlags cv cb s =
    { s with errBadCmd := if cb then false else s.errBadCmd,
             errValueRange := if cv then false else s.errValueRange } := by
  simp [clearErrFlags, Bool.and_comm]

/-- Settles O38: the chosen flags are cleared, and a reserved bit puts the word on R65's list. -/
theorem clearErrResult : Obligations.ClearErrResult := by
  refine ⟨fun cv cb s => ?effect, fun w hc hr => ?word, fun w s hc hr => ?reserved⟩
  case effect => rw [exec_of_enabled (.clearErr cv cb) s rfl, effectOf, clearErrFlags_eq_ite]
  case word => simp [decodeCmd, hc, hr]
  case reserved => exact exec_of_illegalEncoding (.inr (.inr (.inr (.inl ⟨hc, hr⟩)))) s

end Sys2Proof.Machine
end

section
/-! PROOFS. The family of spec/70_reset_and_hazards.md: the reset event (R190, R191). -/

namespace Sys2Proof.Machine

/-- Settles O40: reset is always enabled and answers `resetBlock s`; its decoder state and STATUS are the reset parts of
R127 and R34. -/
theorem resetResult : Obligations.ResetResult := by
  intro s
  have hexec : exec .reset s = .next (resetBlock s) := exec_of_enabled .reset s rfl
  obtain ⟨-, idle, -⟩ := decoderTransitionsByOthers
  obtain ⟨-, status⟩ := statusAfterReset
  exact ⟨rfl, resetBlock s, hexec, rfl, idle s _ hexec, status s _ hexec⟩

end Sys2Proof.Machine
end
